-- ==== Sys2Proof/Word.lean ====
section
/-! DEFINITION. The word types of the block (spec/00_scope.md R7, R12; spec/30_encoding.md R46). -/

namespace Sys2Proof

/-- An 8-bit value: a general register, a timer, a memory byte, the immediate `NN`. -/
abbrev Byte := BitVec 8

/-- A 16-bit value: an opcode, `I`, `PC`, a stack entry. -/
abbrev Word := BitVec 16

/-- The 12-bit address operand `NNN`. -/
abbrev Addr12 := BitVec 12

/-- The number of a general register V0 to VF, or of a key (R17, R28). -/
abbrev Reg := Fin 16

/-- The number of VF, the register that doubles as the flag (R18). -/
abbrev regVF : Reg := 15

end Sys2Proof
end

