-- ==== Sys2Proof/Syntax.lean ====
section
/-! DEFINITION. The 35 instructions (spec/30_encoding.md R47, R51), one constructor per row of
spec/opcode_table.json, in the table's order. `x` and `y` are register numbers, `nn` the immediate
byte, `nnn` the 12-bit address, `n` the row count of a sprite (R46, R48). -/

namespace Sys2Proof

inductive Instr where
  /-- 0NNN, `SYS addr` -/
  | sys (nnn : Addr12)
  /-- 00E0, `CLS` -/
  | cls
  /-- 00EE, `RET` -/
  | ret
  /-- 1NNN, `JP addr` -/
  | jp (nnn : Addr12)
  /-- 2NNN, `CALL addr` -/
  | call (nnn : Addr12)
  /-- 3XNN, `SE Vx, byte` -/
  | seImm (x : Reg) (nn : Byte)
  /-- 4XNN, `SNE Vx, byte` -/
  | sneImm (x : Reg) (nn : Byte)
  /-- 5XY0, `SE Vx, Vy` -/
  | seReg (x y : Reg)
  /-- 6XNN, `LD Vx, byte` -/
  | ldImm (x : Reg) (nn : Byte)
  /-- 7XNN, `ADD Vx, byte` -/
  | addImm (x : Reg) (nn : Byte)
  /-- 8XY0, `LD Vx, Vy` -/
  | ldReg (x y : Reg)
  /-- 8XY1, `OR Vx, Vy` -/
  | or (x y : Reg)
  /-- 8XY2, `AND Vx, Vy` -/
  | and (x y : Reg)
  /-- 8XY3, `XOR Vx, Vy` -/
  | xor (x y : Reg)
  /-- 8XY4, `ADD Vx, Vy` -/
  | addReg (x y : Reg)
  /-- 8XY5, `SUB Vx, Vy` -/
  | sub (x y : Reg)
  /-- 8XY6, `SHR Vx, Vy` (`y` is encoded and not read) -/
  | shr (x y : Reg)
  /-- 8XY7, `SUBN Vx, Vy` -/
  | subn (x y : Reg)
  /-- 8XYE, `SHL Vx, Vy` (`y` is encoded and not read) -/
  | shl (x y : Reg)
  /-- 9XY0, `SNE Vx, Vy` -/
  | sneReg (x y : Reg)
  /-- ANNN, `LD I, addr` -/
  | ldI (nnn : Addr12)
  /-- BNNN, `JP V0, addr` -/
  | jpV0 (nnn : Addr12)
  /-- CXNN, `RND Vx, byte` -/
  | rnd (x : Reg) (nn : Byte)
  /-- DXYN, `DRW Vx, Vy, nibble` -/
  | drw (x y : Reg) (n : Fin 16)
  /-- EX9E, `SKP Vx` -/
  | skp (x : Reg)
  /-- EXA1, `SKNP Vx` -/
  | sknp (x : Reg)
  /-- FX07, `LD Vx, DT` -/
  | ldVxDt (x : Reg)
  /-- FX0A, `LD Vx, K` -/
  | ldVxK (x : Reg)
  /-- FX15, `LD DT, Vx` -/
  | ldDtVx (x : Reg)
  /-- FX18, `LD ST, Vx` -/
  | ldStVx (x : Reg)
  /-- FX1E, `ADD I, Vx` -/
  | addIVx (x : Reg)
  /-- FX29, `LD F, Vx` -/
  | ldFVx (x : Reg)
  /-- FX33, `LD B, Vx` -/
  | ldBVx (x : Reg)
  /-- FX55, `LD [I], Vx` -/
  | ldMemVx (x : Reg)
  /-- FX65, `LD Vx, [I]` -/
  | ldVxMem (x : Reg)
  deriving DecidableEq, Repr

end Sys2Proof
end

