-- ==== Sys2Proof/WellFormed.lean ====
section
/-! DEFINITION. Which instructions have an encoding (spec/30_encoding.md R51, R52). The operand
types already hold the widths of R46; what is left is that SYS does not take the words of CLS and RET. -/

namespace Sys2Proof

/-- SYS excludes `NNN` = 0x0E0 and 0x0EE, whose words are CLS and RET (R51 row 1, R68). -/
def Instr.wf : Instr → Bool
  | .sys nnn => nnn != 0x0E0#12 && nnn != 0x0EE#12
  | .cls | .ret | .jp _ | .call _ | .seImm _ _ | .sneImm _ _ | .seReg _ _ | .ldImm _ _
  | .addImm _ _ | .ldReg _ _ | .or _ _ | .and _ _ | .xor _ _ | .addReg _ _ | .sub _ _
  | .shr _ _ | .subn _ _ | .shl _ _ | .sneReg _ _ | .ldI _ | .jpV0 _ | .rnd _ _ | .drw _ _ _
  | .skp _ | .sknp _ | .ldVxDt _ | .ldVxK _ | .ldDtVx _ | .ldStVx _ | .addIVx _ | .ldFVx _
  | .ldBVx _ | .ldMemVx _ | .ldVxMem _ => true

end Sys2Proof
end

