-- ==== Sys2Proof/Decode.lean ====
section
/-! DEFINITION. The decoder (spec/30_encoding.md R46, R49, R50), total over all 65536 words, and after
it the encoder, written from the formats and the match column of R47 and R51. -/

namespace Sys2Proof

/-! ## The fields of an opcode word (R46) -/

/-- The top nibble, `w[15:12]`. -/
def fieldTop (w : Word) : BitVec 4 := w.extractLsb' 12 4

/-- `X = w[11:8]`. -/
def fieldX (w : Word) : Reg := (w.extractLsb' 8 4).toFin

/-- `Y = w[7:4]`. -/
def fieldY (w : Word) : Reg := (w.extractLsb' 4 4).toFin

/-- `N = w[3:0]`. -/
def fieldN (w : Word) : Fin 16 := (w.extractLsb' 0 4).toFin

/-- `NN = w[7:0]`. -/
def fieldNN (w : Word) : Byte := w.extractLsb' 0 8

/-- `NNN = w[11:0]`. -/
def fieldNNN (w : Word) : Addr12 := w.extractLsb' 0 12

/-! ## The decoder (R50) -/

/-- What the decoder answers: an instruction of the table, or `UnknownInstruction(w)` (R49). -/
inductive Decoded where
  | instr (i : Instr)
  | unknown (w : Word)
  deriving DecidableEq, Repr

/-- Group 0x0: 00E0 and 00EE take precedence over SYS (R50, R51). -/
def decode0 (w : Word) : Decoded :=
  if w = 0x00E0#16 then .instr .cls
  else if w = 0x00EE#16 then .instr .ret
  else .instr (.sys (fieldNNN w))

/-- Group 0x8, selected by the low nibble (R50). -/
def decode8 (w : Word) : Decoded :=
  match (fieldN w).val with
  | 0x0 => .instr (.ldReg (fieldX w) (fieldY w))
  | 0x1 => .instr (.or (fieldX w) (fieldY w))
  | 0x2 => .instr (.and (fieldX w) (fieldY w))
  | 0x3 => .instr (.xor (fieldX w) (fieldY w))
  | 0x4 => .instr (.addReg (fieldX w) (fieldY w))
  | 0x5 => .instr (.sub (fieldX w) (fieldY w))
  | 0x6 => .instr (.shr (fieldX w) (fieldY w))
  | 0x7 => .instr (.subn (fieldX w) (fieldY w))
  | 0xE => .instr (.shl (fieldX w) (fieldY w))
  | _ => .unknown w

/-- Group 0xE, selected by the low byte (R50; spec/90_conflicts.md C9). -/
def decodeE (w : Word) : Decoded :=
  match (fieldNN w).toNat with
  | 0x9E => .instr (.skp (fieldX w))
  | 0xA1 => .instr (.sknp (fieldX w))
  | _ => .unknown w

/-- Group 0xF, selected by the low byte (R50). -/
def decodeF (w : Word) : Decoded :=
  match (fieldNN w).toNat with
  | 0x07 => .instr (.ldVxDt (fieldX w))
  | 0x0A => .instr (.ldVxK (fieldX w))
  | 0x15 => .instr (.ldDtVx (fieldX w))
  | 0x18 => .instr (.ldStVx (fieldX w))
  | 0x1E => .instr (.addIVx (fieldX w))
  | 0x29 => .instr (.ldFVx (fieldX w))
  | 0x33 => .instr (.ldBVx (fieldX w))
  | 0x55 => .instr (.ldMemVx (fieldX w))
  | 0x65 => .instr (.ldVxMem (fieldX w))
  | _ => .unknown w

/-- The decoder of R50. Groups 0x5 and 0x9 also check the low nibble (spec/90_conflicts.md C4).
The last arm is top nibble 0xF, the only value left. -/
def decode (w : Word) : Decoded :=
  match (fieldTop w).toNat with
  | 0x0 => decode0 w
  | 0x1 => .instr (.jp (fieldNNN w))
  | 0x2 => .instr (.call (fieldNNN w))
  | 0x3 => .instr (.seImm (fieldX w) (fieldNN w))
  | 0x4 => .instr (.sneImm (fieldX w) (fieldNN w))
  | 0x5 => if fieldN w = 0 then .instr (.seReg (fieldX w) (fieldY w)) else .unknown w
  | 0x6 => .instr (.ldImm (fieldX w) (fieldNN w))
  | 0x7 => .instr (.addImm (fieldX w) (fieldNN w))
  | 0x8 => decode8 w
  | 0x9 => if fieldN w = 0 then .instr (.sneReg (fieldX w) (fieldY w)) else .unknown w
  | 0xA => .instr (.ldI (fieldNNN w))
  | 0xB => .instr (.jpV0 (fieldNNN w))
  | 0xC => .instr (.rnd (fieldX w) (fieldNN w))
  | 0xD => .instr (.drw (fieldX w) (fieldY w) (fieldN w))
  | 0xE => decodeE w
  | _ => decodeF w

/-! ## Bytes (R36, R45): the byte at the lower address is the upper half of the opcode -/

/-- The opcode word of two consecutive memory bytes. -/
def wordOfBytes (hi lo : Byte) : Word := hi ++ lo

/-- The byte of a word that stands at the lower address. -/
def hiByte (w : Word) : Byte := w.extractLsb' 8 8

/-- The byte of a word that stands at the higher address. -/
def loByte (w : Word) : Byte := w.extractLsb' 0 8

/-- The decoder on an instruction's two bytes as memory holds them, lower address first. -/
def decodeBytes (hi lo : Byte) : Decoded := decode (wordOfBytes hi lo)

/-- The word that a row of spec/opcode_table.json numbers `nbits` and `w`: bits from `nbits` up are 0. -/
def tableWord (nbits w : Nat) : Word := BitVec.ofNat 16 (w % 2 ^ nbits)

/-- The instruction the decoder reads from an opcode-table word laid out in memory; none for UNKNOWN. -/
def decodeTableWord (nbits w : Nat) : Option Instr :=
  match decodeBytes (hiByte (tableWord nbits w)) (loByte (tableWord nbits w)) with
  | .instr i => some i
  | .unknown _ => none

/-! ## The encoder, by format (R47), with the fixed bits of R51's match column -/

/-- `F_NNN`: `oooo nnnn nnnn nnnn`. -/
def wordNNN (top : BitVec 4) (nnn : Addr12) : Word := top ++ nnn

/-- `F_XNN`, and `F_X` with a fixed low byte: `oooo xxxx nnnn nnnn`. -/
def wordXNN (top : BitVec 4) (x : Reg) (nn : Byte) : Word := top ++ BitVec.ofFin (w := 4) x ++ nn

/-- `F_XYN`, and `F_XY` with a fixed low nibble: `oooo xxxx yyyy nnnn`. -/
def wordXYN (top : BitVec 4) (x y n : Fin 16) : Word :=
  top ++ BitVec.ofFin (w := 4) x ++ BitVec.ofFin (w := 4) y ++ BitVec.ofFin (w := 4) n

/-- The word of an instruction (R51). -/
def encode : Instr → Word
  | .sys nnn => wordNNN 0x0 nnn
  | .cls => 0x00E0#16
  | .ret => 0x00EE#16
  | .jp nnn => wordNNN 0x1 nnn
  | .call nnn => wordNNN 0x2 nnn
  | .seImm x nn => wordXNN 0x3 x nn
  | .sneImm x nn => wordXNN 0x4 x nn
  | .seReg x y => wordXYN 0x5 x y 0x0
  | .ldImm x nn => wordXNN 0x6 x nn
  | .addImm x nn => wordXNN 0x7 x nn
  | .ldReg x y => wordXYN 0x8 x y 0x0
  | .or x y => wordXYN 0x8 x y 0x1
  | .and x y => wordXYN 0x8 x y 0x2
  | .xor x y => wordXYN 0x8 x y 0x3
  | .addReg x y => wordXYN 0x8 x y 0x4
  | .sub x y => wordXYN 0x8 x y 0x5
  | .shr x y => wordXYN 0x8 x y 0x6
  | .subn x y => wordXYN 0x8 x y 0x7
  | .shl x y => wordXYN 0x8 x y 0xE
  | .sneReg x y => wordXYN 0x9 x y 0x0
  | .ldI nnn => wordNNN 0xA nnn
  | .jpV0 nnn => wordNNN 0xB nnn
  | .rnd x nn => wordXNN 0xC x nn
  | .drw x y n => wordXYN 0xD x y n
  | .skp x => wordXNN 0xE x 0x9E
  | .sknp x => wordXNN 0xE x 0xA1
  | .ldVxDt x => wordXNN 0xF x 0x07
  | .ldVxK x => wordXNN 0xF x 0x0A
  | .ldDtVx x => wordXNN 0xF x 0x15
  | .ldStVx x => wordXNN 0xF x 0x18
  | .addIVx x => wordXNN 0xF x 0x1E
  | .ldFVx x => wordXNN 0xF x 0x29
  | .ldBVx x => wordXNN 0xF x 0x33
  | .ldMemVx x => wordXNN 0xF x 0x55
  | .ldVxMem x => wordXNN 0xF x 0x65

end Sys2Proof
end

