-- ==== Sys2Proof/Config.lean ====
section
/-! DEFINITION. What is fixed for the block (spec/00_scope.md R7), and the one free input of a step (R9). -/

namespace Sys2Proof.Config

/-- `MEM_SIZE`: addresses 0x000 to 0xFFF (R7, R30). -/
abbrev memSize : Nat := 4096

/-- The highest address, 0xFFF (R30). -/
abbrev maxAddr : Nat := 0xFFF

/-- `PROG_BASE`: the reset value of PC and the default load origin (R7, R31). -/
abbrev progBase : Nat := 0x200

/-- `STACK_DEPTH` (R7, R24). -/
abbrev stackDepth : Nat := 16

/-- `DISP_W`, the columns of the framebuffer (R7, R27). -/
abbrev dispW : Nat := 64

/-- `DISP_H`, the rows of the framebuffer (R7, R27). -/
abbrev dispH : Nat := 32

/-- The free 8-bit input `draw_random()` of CXNN (R9, R11, R89): the k-th byte drawn.
It has no body, so no proof can know a value of it: every claim about CXNN holds for every byte
(notes/assumptions/1.md, DESIGN CHOICE). -/
opaque drawRandom : Nat → Byte

end Sys2Proof.Config
end

