-- ==== Sys2Proof/Machine/Font.lean ====
section
/-! DEFINITION. The font (spec/20_memory.md R32) and the contents of memory after reset (R33). -/

namespace Sys2Proof.Machine

/-- `FONT_BASE` (R32; the spec's decision D14). -/
def fontBase : Nat := 0x000

/-- The bytes of one glyph (R32). -/
def glyphSize : Nat := 5

/-- The 80 font bytes, glyph 0 to glyph F, top row first (R32). -/
def fontBytes : List Byte :=
  [0xF0, 0x90, 0x90, 0x90, 0xF0, 0x20, 0x60, 0x20, 0x20, 0x70,
   0xF0, 0x10, 0xF0, 0x80, 0xF0, 0xF0, 0x10, 0xF0, 0x10, 0xF0] ++
  [0x90, 0x90, 0xF0, 0x10, 0x10, 0xF0, 0x80, 0xF0, 0x10, 0xF0,
   0xF0, 0x80, 0xF0, 0x90, 0xF0, 0xF0, 0x10, 0x20, 0x40, 0x40] ++
  [0xF0, 0x90, 0xF0, 0x90, 0xF0, 0xF0, 0x90, 0xF0, 0x10, 0xF0,
   0xF0, 0x90, 0xF0, 0x90, 0x90, 0xE0, 0x90, 0xE0, 0x90, 0xE0] ++
  [0xF0, 0x80, 0x80, 0x80, 0xF0, 0xE0, 0x90, 0x90, 0x90, 0xE0,
   0xF0, 0x80, 0xF0, 0x80, 0xF0, 0xF0, 0x80, 0xF0, 0x80, 0x80]

/-- What an address that memory does not list reads as: the contents after `reset()` (R33). -/
def Memory.resetByte (a : Nat) : Byte :=
  if fontBase ≤ a then fontBytes.getD (a - fontBase) 0x00#8 else 0x00#8

/-- The address of the glyph of a hexadecimal digit (R32, R92). -/
def glyphAddr (digit : Fin 16) : Nat := fontBase + glyphSize * digit.val

end Sys2Proof.Machine
end

