-- ==== Sys2Proof/Machine/State.lean ====
section
/-! DEFINITION. The state of the block (spec/10_state.md R15), the reasons a step can stop
(spec/60_exceptions.md R102), and the state after reset (spec/70_reset_and_hazards.md R118). -/

namespace Sys2Proof.Machine

/-- Memory: a sparse list of (address, byte) pairs. Addresses rise strictly, and an address that is
not listed holds its reset byte (`Memory.resetByte`: the font, and 0 elsewhere; R33). -/
abbrev Memory := List Host.Cell

/-- One row of the display: 64 pixels, column 0 leftmost (R27). -/
abbrev PixelRow := Vector Bool 64

/-- The 64 × 32 grid of Boolean pixels: 32 rows, row 0 at the top (R27). -/
abbrev Framebuffer := Vector PixelRow 32

/-- The state `S` of R15, field by field under the manual's names, and one field of the model's own (`draws`). -/
structure State where
  /-- V0 to VF (R17). -/
  v : Vector Byte 16
  /-- `I`, the index register (R23). -/
  i : Word
  /-- `PC` (R21). -/
  pc : Word
  /-- `SP`, the number of stack entries in use, 0 to 16 (R24). -/
  sp : Fin 17
  /-- `STACK[0..15]` (R24). -/
  stack : Vector Word 16
  /-- `DT`, the delay timer (R25). -/
  dt : Byte
  /-- `ST`, the sound timer (R25). -/
  st : Byte
  /-- `MEM[0..4095]` (R30). -/
  mem : Memory
  /-- `FB`, the framebuffer (R27). -/
  fb : Framebuffer
  /-- `KEY[0..15]`, the key-down flags (R28). -/
  key : Vector Bool 16
  /-- `WAIT`, the awaiting-key state of FX0A: none, or the target register (R29). -/
  wait : Option Reg
  /-- `WAIT_LATCH`, the mask of keys pressed since the wait began (R29). -/
  waitLatch : BitVec 16
  /-- The MODEL's own field: how many random bytes CXNN has drawn. The next one is the free value
  `Config.drawRandom draws` (R9, R89; notes/assumptions/1.md). -/
  draws : Nat
  deriving DecidableEq, Repr

/-- The fault results of R102, each with the record the rule gives. A fault is what `step()` returns;
it enters no handler (R105). What it leaves in the state is `State.afterFault` (R59, R60), and the host
may go on from there (`callStep`). Safe: the run of `step` stops where the host may go on. -/
inductive Fault where
  /-- Raised by the fetch (with PC outside 0x200 to 0xFFE; no opcode) and by DXYN, FX33, FX55 and FX65
  (an access above 0xFFF). Safe: the state is unchanged, as the rule says. -/
  | memoryFault (pc : Word) (addr : Nat) (opcode : Option Word)
  /-- Raised by 2NNN with 16 entries in use. Safe: the state is unchanged. -/
  | stackOverflow (pc opcode : Word)
  /-- Raised by 00EE with an empty stack. Safe: the state is unchanged. -/
  | stackUnderflow (pc opcode : Word)
  /-- Raised by the step on a word outside the opcode table. Safe: PC advances by 2 and nothing else changes. -/
  | unknownInstruction (pc opcode : Word)
  /-- Raised by EX9E, EXA1 and FX29 when VX is above 0x0F. Safe: the state is unchanged. -/
  | operandRange (pc opcode : Word) (value : Byte)
  deriving DecidableEq, Repr

/-- Why the model would give an instruction no meaning. -/
inductive Refusal where
  /-- Raised by an arm of `exec` that has no meaning yet. Safe. No arm does so in this model. -/
  | notModelled (mnemonic : String)
  deriving DecidableEq, Repr

/-- The state right after `reset()` (R15, R118): memory lists nothing, so it holds the font and zeros (R33). -/
def State.reset : State where
  v := Vector.replicate 16 0x00#8
  i := 0x0000#16
  pc := BitVec.ofNat 16 Config.progBase
  sp := 0
  stack := Vector.replicate 16 0x0000#16
  dt := 0x00#8
  st := 0x00#8
  mem := []
  fb := Vector.replicate 32 (Vector.replicate 64 false)
  key := Vector.replicate 16 false
  wait := none
  waitLatch := 0x0000#16
  draws := 0

end Sys2Proof.Machine
end

