-- ==== Sys2Proof/Machine/Ops.lean ====
section
/-! DEFINITION. The named operations over the state: registers, stack, memory, faults. -/

namespace Sys2Proof.Machine

/-- What a meaning answers. -/
abbrev Result := Host.Outcome State Fault Refusal

/-! ## Registers (R11, R17, R21, R23, R25) -/

/-- `V[x]`. -/
def State.getV (s : State) (x : Reg) : Byte := s.v[x.val]

/-- `V[x] <- b`. -/
def State.setV (s : State) (x : Reg) (b : Byte) : State := { s with v := s.v.set x.val b }

/-- `I <- w`. -/
def State.setI (s : State) (w : Word) : State := { s with i := w }

/-- `PC <- w`. -/
def State.setPc (s : State) (w : Word) : State := { s with pc := w }

/-- `DT <- b`. -/
def State.setDt (s : State) (b : Byte) : State := { s with dt := b }

/-- `ST <- b`. -/
def State.setSt (s : State) (b : Byte) : State := { s with st := b }

/-- The memory replaced as a whole. -/
def State.setMem (s : State) (m : Memory) : State := { s with mem := m }

/-- The framebuffer replaced as a whole. -/
def State.setFb (s : State) (f : Framebuffer) : State := { s with fb := f }

/-- `KEY(k) <- down`. -/
def State.setKeyFlag (s : State) (k : Fin 16) (down : Bool) : State := { s with key := s.key.set k.val down }

/-- `WAIT <- w` and `WAIT_LATCH <- latch`. -/
def State.setWait (s : State) (w : Option Reg) (latch : BitVec 16) : State :=
  { s with wait := w, waitLatch := latch }

/-- One random byte has been drawn (R9; the model's own counter). -/
def State.countDraw (s : State) : State := { s with draws := s.draws + 1 }

/-- `PC <- PC + 2`, the default advance (R21, R58). -/
def State.advance (s : State) : State := s.setPc (s.pc + 2#16)

/-- `PC <- PC + 4` if the condition holds, else `PC <- PC + 2` (R58). -/
def State.skipIf (s : State) (c : Bool) : State := s.setPc (if c then s.pc + 4#16 else s.pc + 2#16)

/-! ## The stack (R24) -/

/-- `STACK[SP] <- w; SP <- SP + 1`; none when all 16 entries are in use (R70). -/
def State.push (s : State) (w : Word) : Option State :=
  if h : s.sp.val < 16 then
    some { s with stack := s.stack.set s.sp.val w, sp := ⟨s.sp.val + 1, by omega⟩ }
  else none

/-- The top entry `STACK[SP - 1]`, with `SP <- SP - 1` and the entry left as it is; none when the stack is
empty (R71). -/
def State.pop (s : State) : Option (Word × State) :=
  if h : 0 < s.sp.val then
    some (s.stack[s.sp.val - 1]'(by have := s.sp.isLt; omega),
      { s with sp := ⟨s.sp.val - 1, by have := s.sp.isLt; omega⟩ })
  else none

/-! ## Memory (R30 to R39) -/

/-- The byte at `a` (R11, `MemRead(a, 1)`, for an address already checked). -/
def Memory.read : Memory → Nat → Byte
  | [], a => Memory.resetByte a
  | (b, x) :: rest, a => if a = b then x else Memory.read rest a

/-- The listing of byte `x` at `a`, in front of `rest`; nothing is listed if `x` is what an unlisted address reads as. -/
def Memory.cons (a : Nat) (x : Byte) (rest : Memory) : Memory :=
  if x = Memory.resetByte a then rest else (a, x) :: rest

/-- `MEM[a] <- x` (R11, `MemWrite(a, 1, x)`, for an address already checked). It keeps the canonical form. -/
def Memory.write : Memory → Nat → Byte → Memory
  | [], a, x => Memory.cons a x []
  | (b, y) :: rest, a, x =>
    if a < b then Memory.cons a x ((b, y) :: rest)
    else if a = b then Memory.cons a x rest
    else (b, y) :: Memory.write rest a x

/-- The bytes at `a`, `a + 1`, …, `n` of them. -/
def Memory.readBytes (m : Memory) (a n : Nat) : List Byte := (List.range n).map fun k => Memory.read m (a + k)

/-- The bytes written at `a`, `a + 1`, …, in this order. -/
def Memory.writeBytes : Memory → Nat → List Byte → Memory
  | m, _, [] => m
  | m, a, x :: xs => Memory.writeBytes (Memory.write m a x) (a + 1) xs

/-- The canonical form from address `lo` on: addresses rise strictly, lie in 0x000 to 0xFFF, and no
entry equals what an unlisted address reads as. -/
def Memory.wfFrom : Nat → Memory → Bool
  | _, [] => true
  | lo, (a, x) :: rest =>
    decide (lo ≤ a) && decide (a ≤ Config.maxAddr) && x != Memory.resetByte a && Memory.wfFrom (a + 1) rest

/-- The canonical form of memory. -/
def Memory.wf (m : Memory) : Bool := Memory.wfFrom 0 m

/-- The lowest of the addresses `base`, …, `base + n - 1` that does not exist (R34, R39): addresses are
unbounded naturals, and one above 0xFFF is bad. -/
def firstBadAddr (base n : Nat) : Option Nat :=
  ((List.range n).find? fun k => decide (base + k > Config.maxAddr)).map fun k => base + k

/-! ## Faults (R102, R105) -/

/-- A fault ends the instruction: `raise F(info)` of R11. The step returns it, and no handler is entered
(R105). What the state is then is `State.afterFault`. -/
def raise (f : Fault) : Result := .fault f

/-- The state a faulting step leaves: PC + 2 after UnknownInstruction (R59), and for every other fault
the state before the step (R60, R105). -/
def State.afterFault (f : Fault) (s : State) : State :=
  match f with
  | .unknownInstruction _ _ => s.advance
  | .memoryFault _ _ _ => s
  | .stackOverflow _ _ => s
  | .stackUnderflow _ _ => s
  | .operandRange _ _ _ => s

/-- The code of a fault kind (R102). -/
def Fault.code : Fault → Nat
  | .memoryFault _ _ _ => 1
  | .stackOverflow _ _ => 2
  | .stackUnderflow _ _ => 3
  | .unknownInstruction _ _ => 4
  | .operandRange _ _ _ => 5

/-- An instruction that touches `base`, …, `base + n - 1`: all the addresses are checked before anything is
written, and the lowest bad one is reported (R39). `w` is the instruction's word (R102). -/
def withBytes (s : State) (w : Word) (base n : Nat) (run : State) : Result :=
  match firstBadAddr base n with
  | some a => raise (.memoryFault s.pc a (some w))
  | none => .next run

end Sys2Proof.Machine
end

