-- ==== Sys2Proof/Machine/Operands.lean ====
section
/-! DEFINITION. The operand forms (spec/30_encoding.md R48): nothing is sign-extended, scaled or shifted. -/

namespace Sys2Proof.Machine

/-- `zext_16(NNN)`, an absolute address (R48). -/
def addrWord (nnn : Addr12) : Word := nnn.setWidth 16

/-- `zext_16` of a register's value, for the sums with `NNN` and `I` (R10, R72, R91). -/
def byteWord (b : Byte) : Word := b.setWidth 16

/-- The memory address `I + k` of byte k is counted from this unbounded natural (R34). -/
def State.base (s : State) : Nat := s.i.toNat

/-- The number of the k-th register, for k in 0..15 (R11). -/
def regOf (k : Nat) : Reg := Fin.ofNat 16 k

/-- The values V0 to VX, inclusive (R94). -/
def State.regsUpTo (s : State) (x : Reg) : List Byte := (List.range (x.val + 1)).map fun k => s.getV (regOf k)

/-- `V[k] <- bs[k]` for every k in 0..n-1, in this order (R95). -/
def State.loadRegs (s : State) (bs : List Byte) : State :=
  (List.range bs.length).foldl (fun t k => t.setV (regOf k) (bs.getD k 0x00#8)) s

/-- A register that must name a key or a digit: VX is at most 0x0F, or the instruction raises OperandRange
with VX's value (R92, R96, R97, R102). `w` is the instruction's word. -/
def withDigit (s : State) (w : Word) (x : Reg) (run : Fin 16 → State) : Result :=
  if h : (s.getV x).toNat < 16 then .next (run ⟨(s.getV x).toNat, h⟩)
  else raise (.operandRange s.pc w (s.getV x))

end Sys2Proof.Machine
end

