-- ==== Sys2Proof/Machine/Keypad.lean ====
section
/-! DEFINITION. The keypad instructions EX9E, EXA1 and FX0A (spec/45_keypad.md), and the step taken while the
block waits for a key (spec/40_execution_cycle.md R56). -/

namespace Sys2Proof.Machine

/-- `KEY(k)`: key k is down (R11, R28). -/
def State.keyDown (s : State) (k : Fin 16) : Bool := s.key[k.val]

/-- SKP Vx, EX9E: skip if the key numbered VX is down (R96). -/
def execSkp (x : Reg) (s : State) : Result :=
  withDigit s (encode (.skp x)) x fun k => s.skipIf (s.keyDown k)

/-- SKNP Vx, EXA1: skip if the key numbered VX is up (R97). -/
def execSknp (x : Reg) (s : State) : Result :=
  withDigit s (encode (.sknp x)) x fun k => s.skipIf (!s.keyDown k)

/-- LD Vx, K, FX0A: the wait begins, with PC already advanced (R98). -/
def execLdVxK (x : Reg) (s : State) : Result := .next (s.setWait (some x) 0x0000#16).advance

/-- The lowest bit set in the latch (R56); none when it is 0. -/
def lowestKey (latch : BitVec 16) : Option Nat := (List.range 16).find? fun k => latch.getLsbD k

/-- `step_wait`, with `WAIT = x` (R56): nothing happens until a key is latched, and then its number goes to
V[x] and the wait ends. PC does not change. -/
def stepWait (x : Reg) (s : State) : State :=
  match lowestKey s.waitLatch with
  | none => s
  | some k => (s.setV x (BitVec.ofNat 8 k)).setWait none 0x0000#16

end Sys2Proof.Machine
end

