-- ==== Sys2Proof/Machine/Cycle.lean ====
section
/-! DEFINITION. The fetch (spec/20_memory.md R37) and what the step does with a word that is no instruction
(spec/40_execution_cycle.md R59). -/

namespace Sys2Proof.Machine

/-- A PC the block may fetch at: `0x200 <= PC` and `PC + 1 <= 0xFFF` (R22, R37). -/
def fetchable (pc : Word) : Bool := decide (Config.progBase ≤ pc.toNat) && decide (pc.toNat + 1 ≤ Config.maxAddr)

/-- The big-endian word at `a` (R36, R37). -/
def Memory.readWord (m : Memory) (a : Nat) : Word := wordOfBytes (Memory.read m a) (Memory.read m (a + 1))

/-- `FetchWord(PC)` (R37): none where the fetch raises MemoryFault(PC). -/
def State.fetchWord (s : State) : Option Word :=
  if fetchable s.pc then some (Memory.readWord s.mem s.pc.toNat) else none

/-- The fault of a fetch outside the window: it records PC, not PC + 1, and no opcode (R37, R102). -/
def raiseFetch (s : State) : Result := raise (.memoryFault s.pc s.pc.toNat none)

/-- An UNKNOWN word (R59). The PC + 2 it leaves is `State.afterFault`. -/
def raiseUnknown (w : Word) (s : State) : Result := raise (.unknownInstruction s.pc w)

/-- The word `w` stored where the next step fetches, and the wait ended, so that the next step runs it. Where
PC is outside the fetch window it is set to the program's origin. -/
def State.placeWord (s : State) (w : Word) : State :=
  let pc := if fetchable s.pc then s.pc else BitVec.ofNat 16 Config.progBase
  { s with
    pc := pc
    wait := none
    mem := Memory.write (Memory.write s.mem pc.toNat (hiByte w)) (pc.toNat + 1) (loByte w) }

end Sys2Proof.Machine
end

