-- ==== Sys2Proof/Machine/Flags.lean ====
section
/-! DEFINITION. The flag computations, all into VF (spec/10_state.md R18, R19; spec/43_alu.md R77). -/

namespace Sys2Proof.Machine

/-- A flag's value in VF: 0x01 or 0x00. -/
def flagByte (c : Bool) : Byte := if c then 0x01#8 else 0x00#8

/-- The carry of an 8-bit sum: the exact sum is above 255 (R84). -/
def carryFlag (a b : Byte) : Byte := flagByte (decide (a.toNat + b.toNat > 255))

/-- No borrow in `a - b`: the minuend is at least the subtrahend (R85, R87). -/
def noBorrowFlag (a b : Byte) : Byte := flagByte (decide (a.toNat ≥ b.toNat))

/-- The bit a right shift by one moves out, bit 0 (R86). -/
def shiftedOutRight (a : Byte) : Byte := a &&& 0x01#8

/-- The bit a left shift by one moves out, bit 7 (R88). -/
def shiftedOutLeft (a : Byte) : Byte := (a >>> 7) &&& 0x01#8

/-- A result to V[X] first and a flag to VF second, so the flag is what remains when X = F (R19). -/
def State.setResultFlag (s : State) (x : Reg) (result flag : Byte) : State :=
  (s.setV x result).setV regVF flag

end Sys2Proof.Machine
end

