-- ==== Sys2Proof/Machine/Alu.lean ====
section
/-! DEFINITION. The register and ALU instructions 6XNN, 7XNN, 8XY0 to 8XYE and CXNN (spec/43_alu.md). -/

namespace Sys2Proof.Machine

/-- A result to V[X], no flag, PC + 2. -/
def State.writeV (s : State) (x : Reg) (result : Byte) : Result := .next (s.setV x result).advance

/-- A result to V[X], then a flag to VF, PC + 2 (R77). -/
def State.writeVF (s : State) (x : Reg) (result flag : Byte) : Result :=
  .next (s.setResultFlag x result flag).advance

/-- LD Vx, byte, 6XNN (R78). -/
def execLdImm (x : Reg) (nn : Byte) (s : State) : Result := s.writeV x nn

/-- ADD Vx, byte, 7XNN: mod 256, no flag update (R79). -/
def execAddImm (x : Reg) (nn : Byte) (s : State) : Result := s.writeV x (s.getV x + nn)

/-- LD Vx, Vy, 8XY0 (R80). -/
def execLdReg (x y : Reg) (s : State) : Result := s.writeV x (s.getV y)

/-- OR Vx, Vy, 8XY1 (R81). -/
def execOr (x y : Reg) (s : State) : Result := s.writeV x (s.getV x ||| s.getV y)

/-- AND Vx, Vy, 8XY2 (R82). -/
def execAnd (x y : Reg) (s : State) : Result := s.writeV x (s.getV x &&& s.getV y)

/-- XOR Vx, Vy, 8XY3 (R83). -/
def execXor (x y : Reg) (s : State) : Result := s.writeV x (s.getV x ^^^ s.getV y)

/-- ADD Vx, Vy, 8XY4 (R84). -/
def execAddReg (x y : Reg) (s : State) : Result :=
  s.writeVF x (s.getV x + s.getV y) (carryFlag (s.getV x) (s.getV y))

/-- SUB Vx, Vy, 8XY5 (R85). -/
def execSub (x y : Reg) (s : State) : Result :=
  s.writeVF x (s.getV x - s.getV y) (noBorrowFlag (s.getV x) (s.getV y))

/-- SHR Vx, Vy, 8XY6: VX is shifted in place, Vy is not read (R86). -/
def execShr (x _y : Reg) (s : State) : Result := s.writeVF x (s.getV x >>> 1) (shiftedOutRight (s.getV x))

/-- SUBN Vx, Vy, 8XY7 (R87). -/
def execSubn (x y : Reg) (s : State) : Result :=
  s.writeVF x (s.getV y - s.getV x) (noBorrowFlag (s.getV y) (s.getV x))

/-- SHL Vx, Vy, 8XYE: VX is shifted in place, Vy is not read (R88). -/
def execShl (x _y : Reg) (s : State) : Result := s.writeVF x (s.getV x <<< 1) (shiftedOutLeft (s.getV x))

/-- What CXNN does with the byte `r` it draws (R89). -/
def State.rndWith (r : Byte) (x : Reg) (nn : Byte) (s : State) : Result := s.writeV x (r &&& nn)

/-- RND Vx, byte, CXNN: the byte drawn is the free value at this state's count (R9, R89). -/
def execRnd (x : Reg) (nn : Byte) (s : State) : Result :=
  State.rndWith (Config.drawRandom s.draws) x nn s.countDraw

end Sys2Proof.Machine
end

