-- ==== Sys2Proof/Machine/Control.lean ====
section
/-! DEFINITION. Control flow: 0NNN, 00EE, 1NNN, 2NNN, BNNN and the register skips (spec/42_control_flow.md). -/

namespace Sys2Proof.Machine

/-- SYS addr, 0NNN: no operation (R68). -/
def execSys (_nnn : Addr12) (s : State) : Result := .next s.advance

/-- JP addr, 1NNN (R69). -/
def execJp (nnn : Addr12) (s : State) : Result := .next (s.setPc (addrWord nnn))

/-- CALL addr, 2NNN (R70): pushes the address of the word after it, or raises StackOverflow. -/
def execCall (nnn : Addr12) (s : State) : Result :=
  match s.push (s.pc + 2#16) with
  | some t => .next (t.setPc (addrWord nnn))
  | none => raise (.stackOverflow s.pc (encode (.call nnn)))

/-- RET, 00EE (R71): to the popped address, or raises StackUnderflow. -/
def execRet (s : State) : Result :=
  match s.pop with
  | some (w, t) => .next (t.setPc w)
  | none => raise (.stackUnderflow s.pc (encode .ret))

/-- JP V0, addr, BNNN (R72): a 16-bit sum, not wrapped to 12 bits. -/
def execJpV0 (nnn : Addr12) (s : State) : Result := .next (s.setPc (addrWord nnn + byteWord (s.getV 0)))

/-- SE Vx, byte, 3XNN (R73). -/
def execSeImm (x : Reg) (nn : Byte) (s : State) : Result := .next (s.skipIf (s.getV x == nn))

/-- SNE Vx, byte, 4XNN (R74). -/
def execSneImm (x : Reg) (nn : Byte) (s : State) : Result := .next (s.skipIf (s.getV x != nn))

/-- SE Vx, Vy, 5XY0 (R75). -/
def execSeReg (x y : Reg) (s : State) : Result := .next (s.skipIf (s.getV x == s.getV y))

/-- SNE Vx, Vy, 9XY0 (R76). -/
def execSneReg (x y : Reg) (s : State) : Result := .next (s.skipIf (s.getV x != s.getV y))

end Sys2Proof.Machine
end

