-- ==== Sys2Proof/Machine/Display.lean ====
section
/-! DEFINITION. The display instructions 00E0 and DXYN (spec/41_display.md R62 to R65). -/

namespace Sys2Proof.Machine

/-- `FB(x, y)`: column x, row y (R11, R27). -/
def Framebuffer.pixel (f : Framebuffer) (x : Fin 64) (y : Fin 32) : Bool := f[y.val][x.val]

/-- `FB(x, y) <- b`. -/
def Framebuffer.setPixel (f : Framebuffer) (x : Fin 64) (y : Fin 32) (b : Bool) : Framebuffer :=
  f.set y.val (f[y.val].set x.val b)

/-- Every pixel off (R62). -/
def Framebuffer.clear : Framebuffer := Vector.replicate 32 (Vector.replicate 64 false)

/-- A drawing in progress: the framebuffer, and whether a pixel has gone from on to off (R65). -/
abbrev Drawing := Framebuffer × Bool

/-- One 1 bit of a sprite at column x, row y: off the screen it is clipped (R63), else it toggles its pixel,
and a pixel that was on is a collision (R64, R65). -/
def togglePixel (d : Drawing) (x y : Nat) : Drawing :=
  if h : x < 64 ∧ y < 32 then
    let old := Framebuffer.pixel d.1 ⟨x, h.1⟩ ⟨y, h.2⟩
    (Framebuffer.setPixel d.1 ⟨x, h.1⟩ ⟨y, h.2⟩ (!old), d.2 || old)
  else d

/-- One sprite row at row y from column x0: bit 7 is the leftmost pixel (R64). -/
def drawRow (d : Drawing) (row : Byte) (x0 y : Nat) : Drawing :=
  (List.range 8).foldl (fun d c => if row.getLsbD (7 - c) then togglePixel d (x0 + c) y else d) d

/-- The sprite rows from row y down (R65). -/
def drawRows : Drawing → List Byte → Nat → Nat → Drawing
  | d, [], _, _ => d
  | d, row :: rows, x0, y => drawRows (drawRow d row x0 y) rows x0 (y + 1)

/-- The column a sprite starts at, `V[X] mod 64` (R63). -/
def spriteCol (s : State) (x : Reg) : Nat := (s.getV x).toNat % Config.dispW

/-- The row a sprite starts at, `V[Y] mod 32` (R63). -/
def spriteRow (s : State) (y : Reg) : Nat := (s.getV y).toNat % Config.dispH

/-- The drawing of N rows at (VX, VY) from `I` (R65). -/
def spriteDrawing (s : State) (x y : Reg) (n : Fin 16) : Drawing :=
  drawRows (s.fb, false) (Memory.readBytes s.mem s.base n.val) (spriteCol s x) (spriteRow s y)

/-- CLS, 00E0 (R62). -/
def execCls (s : State) : Result := .next (s.setFb Framebuffer.clear).advance

/-- DRW Vx, Vy, nibble, DXYN (R65): all N row addresses are checked first, clipped rows included. -/
def execDrw (x y : Reg) (n : Fin 16) (s : State) : Result :=
  withBytes s (encode (.drw x y n)) s.base n.val
    (((s.setFb (spriteDrawing s x y n).1).setV regVF (flagByte (spriteDrawing s x y n).2)).advance)

end Sys2Proof.Machine
end

