-- ==== Sys2Proof/Machine/Index.lean ====
section
/-! DEFINITION. The index register and memory instructions ANNN, FX1E, FX29, FX33, FX55 and FX65
(spec/44_index_memory.md). `I` is never changed by an access. -/

namespace Sys2Proof.Machine

/-- LD I, addr, ANNN (R90). -/
def execLdI (nnn : Addr12) (s : State) : Result := .next (s.setI (addrWord nnn)).advance

/-- ADD I, Vx, FX1E: mod 65536, no flag (R91). -/
def execAddIVx (x : Reg) (s : State) : Result := .next (s.setI (s.i + byteWord (s.getV x))).advance

/-- LD F, Vx, FX29 (R92). -/
def execLdFVx (x : Reg) (s : State) : Result :=
  withDigit s (encode (.ldFVx x)) x fun d => (s.setI (BitVec.ofNat 16 (glyphAddr d))).advance

/-- The decimal digits of a byte: hundreds, tens, ones (R93). -/
def bcdDigits (b : Byte) : List Byte :=
  [BitVec.ofNat 8 (b.toNat / 100), BitVec.ofNat 8 (b.toNat / 10 % 10), BitVec.ofNat 8 (b.toNat % 10)]

/-- The bytes `bs` stored from `I` up, all or none, PC + 2 (R39, R93, R94). -/
def State.storeBytes (s : State) (w : Word) (bs : List Byte) : Result :=
  withBytes s w s.base bs.length (s.setMem (Memory.writeBytes s.mem s.base bs)).advance

/-- LD B, Vx, FX33 (R93). -/
def execLdBVx (x : Reg) (s : State) : Result := s.storeBytes (encode (.ldBVx x)) (bcdDigits (s.getV x))

/-- LD [I], Vx, FX55: V0 to VX inclusive (R94). -/
def execLdMemVx (x : Reg) (s : State) : Result := s.storeBytes (encode (.ldMemVx x)) (s.regsUpTo x)

/-- LD Vx, [I], FX65: V0 to VX inclusive (R95). -/
def execLdVxMem (x : Reg) (s : State) : Result :=
  withBytes s (encode (.ldVxMem x)) s.base (x.val + 1)
    (s.loadRegs (Memory.readBytes s.mem s.base (x.val + 1))).advance

end Sys2Proof.Machine
end

