-- ==== Sys2Proof/Machine/Timers.lean ====
section
/-! DEFINITION. The timer instructions FX07, FX15 and FX18 (spec/46_timers.md). -/

namespace Sys2Proof.Machine

/-- LD Vx, DT, FX07 (R99). -/
def execLdVxDt (x : Reg) (s : State) : Result := .next (s.setV x s.dt).advance

/-- LD DT, Vx, FX15 (R100). -/
def execLdDtVx (x : Reg) (s : State) : Result := .next (s.setDt (s.getV x)).advance

/-- LD ST, Vx, FX18 (R101). -/
def execLdStVx (x : Reg) (s : State) : Result := .next (s.setSt (s.getV x)).advance

end Sys2Proof.Machine
end

