-- ==== Sys2Proof/Machine/Step.lean ====
section
/-! DEFINITION. One `step()` (spec/40_execution_cycle.md R55). -/

namespace Sys2Proof.Machine

/-- The step of R55: the wait first, then the fetch, the decoder, and the instruction's meaning, which moves PC itself. -/
def step (s : State) : Host.Outcome State Fault Refusal :=
  match s.wait with
  | some x => .next (stepWait x s)
  | none =>
    match s.fetchWord with
    | none => raiseFetch s
    | some w =>
      match decode w with
      | .unknown u => raiseUnknown u s
      | .instr i => exec i s

/-- `s` with the opcode-table word `w` (of `nbits` bits) stored where `step` fetches its next instruction. -/
def State.withFetchWord (s : State) (nbits w : Nat) : State := s.placeWord (tableWord nbits w)

end Sys2Proof.Machine
end

