-- ==== Sys2Proof/Machine/HostOps.lean ====
section
/-! DEFINITION. The host's operations on the block (spec/60_exceptions.md R108 to R114;
spec/70_reset_and_hazards.md R118, R120), each one atomic transition between two steps. -/

namespace Sys2Proof.Machine

/-! ## Outputs -/

/-- `sound_active()`: `ST > 0` (R110). -/
def State.soundActive (s : State) : Bool := decide (s.st.toNat > 0)

/-- `framebuffer()`: a copy of FB; no state changes (R113). -/
def State.framebuffer (s : State) : Framebuffer := s.fb

/-! ## `step()` with its result (R54) -/

/-- What `step()` returns (R54), with `refused` for an instruction without a meaning (there is none). -/
inductive StepResult where
  | ok (displayChanged soundActive : Bool)
  | fault (f : Fault) (soundActive : Bool)
  | refused (r : Refusal)
  deriving DecidableEq, Repr

/-- The instructions whose completion sets `display_changed`: CLS and DRW (R54). -/
def isDisplay : Instr → Bool
  | .cls => true
  | .drw _ _ _ => true
  | .sys _ | .ret | .jp _ | .call _ | .seImm _ _ | .sneImm _ _ | .seReg _ _ | .ldImm _ _
  | .addImm _ _ | .ldReg _ _ | .or _ _ | .and _ _ | .xor _ _ | .addReg _ _ | .sub _ _
  | .shr _ _ | .subn _ _ | .shl _ _ | .sneReg _ _ | .ldI _ | .jpV0 _ | .rnd _ _
  | .skp _ | .sknp _ | .ldVxDt _ | .ldVxK _ | .ldDtVx _ | .ldStVx _ | .addIVx _ | .ldFVx _
  | .ldBVx _ | .ldMemVx _ | .ldVxMem _ => false

/-- The instruction the next step runs: none in the wait, at a fetch fault, or at an UNKNOWN word (R55). -/
def State.nextInstr (s : State) : Option Instr :=
  match s.wait, s.fetchWord with
  | none, some w =>
    match decode w with
    | .instr i => some i
    | .unknown _ => none
  | _, _ => none

/-- `step()` as the host calls it: the state after it and what it returns (R54, R55). A faulting step leaves
`State.afterFault`, so the host may call it again (R59, R60, R105). -/
def callStep (s : State) : State × StepResult :=
  match step s with
  | .next t => (t, .ok (s.nextInstr.any isDisplay) t.soundActive)
  | .fault f => (s.afterFault f, .fault f (s.afterFault f).soundActive)
  | .refused r => (s, .refused r)

/-! ## Inputs -/

/-- A counter moved one toward 0, and held there (R108). -/
def countDown (b : Byte) : Byte := if b.toNat > 0 then b - 1#8 else b

/-- `tick()`, one 60 Hz timer event (R108). -/
def tick (s : State) : State := (s.setDt (countDown s.dt)).setSt (countDown s.st)

/-- `set_key(k, p)` for a key 0 to 15 (R112): a press that turns an up key down during a wait is latched. -/
def setKey (k : Fin 16) (p : Bool) (s : State) : State :=
  let latched :=
    if p && !s.keyDown k && s.wait.isSome then
      s.setWait s.wait (s.waitLatch ||| (1#16 <<< k.val))
    else s
  latched.setKeyFlag k p

/-- `set_key(index, pressed)`: an index outside 0 to 15 has no transition (R112). -/
def setKeyCall (index : Nat) (p : Bool) (s : State) : Option State :=
  if h : index < 16 then some (setKey ⟨index, h⟩ p s) else none

/-- `load(bytes, origin)` (R120): none where the load is refused, and then nothing is written. -/
def load (bytes : List Byte) (origin : Nat) (s : State) : Option State :=
  if origin + bytes.length > Config.memSize then none
  else some (s.setMem (Memory.writeBytes s.mem origin bytes))

/-- `load(bytes)` at the default origin 0x200 (R120). -/
def loadProgram (bytes : List Byte) (s : State) : Option State := load bytes Config.progBase s

/-- `reset()` (R118). The random source is no part of `S` (R16), so the count of bytes drawn goes on
(notes/assumptions/3.md). -/
def resetCall (s : State) : State := { State.reset with draws := s.draws }

/-! ## Schedules -/

/-- The host operations that can change the state (R114). -/
inductive HostOp where
  | step
  | tick
  | setKey (k : Fin 16) (p : Bool)
  | load (bytes : List Byte) (origin : Nat)
  | reset
  deriving DecidableEq, Repr

/-- One host operation; a refused load changes nothing (R114, R120). -/
def HostOp.apply (op : HostOp) (s : State) : State :=
  match op with
  | .step => (callStep s).1
  | .tick => Machine.tick s
  | .setKey k p => Machine.setKey k p s
  | .load bytes origin => (Machine.load bytes origin s).getD s
  | .reset => resetCall s

/-- A schedule: host operations in any order, with any number of ticks and key events between two steps
(R109, R114, R121). -/
def runOps (ops : List HostOp) (s : State) : State := ops.foldl (fun t op => op.apply t) s

end Sys2Proof.Machine
end

