-- ==== Sys2Proof/Safety.lean ====
section
/-! DEFINITION. The terms the claims use: the invariant of the machine, what a safe run is, and what an
instruction leaves unchanged. -/

namespace Sys2Proof.Machine

/-! ## The invariant -/

/-- What every run of the block keeps. -/
structure Inv (s : State) : Prop where
  /-- Memory is in its canonical form. -/
  memWf : Memory.wf s.mem = true
  /-- PC never exceeds the largest value an instruction can write, 0xFFF + 0xFF (R22). -/
  pcBound : s.pc.toNat ≤ 0x10FE
  /-- A return address is at most 0xFFE + 2 (R70). -/
  stackBound : ∀ k : Fin 16, (s.stack[k.val]).toNat ≤ 0x1000
  /-- Outside a wait no key is latched (R29). -/
  latchIdle : s.wait = none → s.waitLatch = 0#16

/-! ## Safe runs -/

/-- An operation of a schedule is safe when it is no step that returns a fault. -/
def HostOp.safe (op : HostOp) (s : State) : Prop := op = .step → ∀ f, Machine.step s ≠ .fault f

/-- A run is safe when none of its steps returns a fault, whatever the host would do after one
(the note after R106 in spec/60_exceptions.md). -/
def SafeRun : List HostOp → State → Prop
  | [], _ => True
  | op :: ops, s => op.safe s ∧ SafeRun ops (op.apply s)

/-! ## Frames -/

/-- The pieces of state of R15 but PC, which the claims speak of by itself, and the model's counter of draws. -/
inductive Part where
  | regs | i | stack | dt | st | mem | fb | key | wait | draws
  deriving DecidableEq, Repr

/-- A piece is the same in two states; memory, by the reading of every byte. -/
def Part.same (p : Part) (s t : State) : Prop :=
  match p with
  | .regs => ∀ r, t.getV r = s.getV r
  | .i => t.i = s.i
  | .stack => t.sp = s.sp ∧ t.stack = s.stack
  | .dt => t.dt = s.dt
  | .st => t.st = s.st
  | .mem => ∀ a, Memory.read t.mem a = Memory.read s.mem a
  | .fb => t.fb = s.fb
  | .key => t.key = s.key
  | .wait => t.wait = s.wait ∧ t.waitLatch = s.waitLatch
  | .draws => t.draws = s.draws

/-- Every piece of state but the listed ones, and but PC, is the same. -/
def KeepsBut (parts : List Part) (s t : State) : Prop := ∀ p, p ∉ parts → p.same s t

/-- Every register but the listed ones is the same. -/
def RegsBut (xs : List Reg) (s t : State) : Prop := ∀ r, r ∉ xs → t.getV r = s.getV r

/-- Every byte of memory outside the `n` bytes at `base` reads as before. -/
def BytesBut (base n : Nat) (s t : State) : Prop :=
  ∀ a, ¬ (base ≤ a ∧ a < base + n) → Memory.read t.mem a = Memory.read s.mem a

/-! ## Two runs side by side -/

/-- The next state of an outcome changed by `f`; a fault stays as it is. -/
def mapNext (f : State → State) (o : Result) : Result :=
  match o with
  | .next t => .next (f t)
  | .fault x => .fault x
  | .refused r => .refused r

/-- Instructions run one after another, without a fetch between them; the first fault ends the run. -/
def execSeq : List Instr → State → Result
  | [], s => .next s
  | i :: is, s =>
    match exec i s with
    | .next t => execSeq is t
    | .fault f => .fault f
    | .refused r => .refused r

end Sys2Proof.Machine
end

