-- ==== Sys2Proof/Certificates/Slice0/Obligations.lean ====
section
/-! DEFINITION. The statements for the provers. Where a statement rests on a point the source leaves open and the
spec decides, its docstring names the decision D<n> of spec/92_eei_decisions.md; it then has basis 'derived'. -/

open Sys2Proof Sys2Proof.Machine

/-! ## Encoding -/

/-- Decoding an encoded instruction gives it back, for every well-formed instruction and every operand value
(30_encoding.md section 3). -/
def Obligations.DecodeOfEncode : Prop := ∀ i : Instr, i.wf = true → decode (encode i) = .instr i

/-- Every word that decodes to an instruction is that instruction's one encoding (30_encoding.md section 3). -/
def Obligations.EncodeOfDecode : Prop :=
  ∀ (w : Word) (i : Instr), decode w = .instr i → i.wf = true ∧ encode i = w

/-- The (match, mask) columns of the opcode map, row by row (R51). -/
def Sys2Proof.opcodeRow : Instr → Word × Word
  | .sys _ => (0x0000#16, 0xF000#16)
  | .cls => (0x00E0#16, 0xFFFF#16)
  | .ret => (0x00EE#16, 0xFFFF#16)
  | .jp _ => (0x1000#16, 0xF000#16)
  | .call _ => (0x2000#16, 0xF000#16)
  | .seImm _ _ => (0x3000#16, 0xF000#16)
  | .sneImm _ _ => (0x4000#16, 0xF000#16)
  | .seReg _ _ => (0x5000#16, 0xF00F#16)
  | .ldImm _ _ => (0x6000#16, 0xF000#16)
  | .addImm _ _ => (0x7000#16, 0xF000#16)
  | .ldReg _ _ => (0x8000#16, 0xF00F#16)
  | .or _ _ => (0x8001#16, 0xF00F#16)
  | .and _ _ => (0x8002#16, 0xF00F#16)
  | .xor _ _ => (0x8003#16, 0xF00F#16)
  | .addReg _ _ => (0x8004#16, 0xF00F#16)
  | .sub _ _ => (0x8005#16, 0xF00F#16)
  | .shr _ _ => (0x8006#16, 0xF00F#16)
  | .subn _ _ => (0x8007#16, 0xF00F#16)
  | .shl _ _ => (0x800E#16, 0xF00F#16)
  | .sneReg _ _ => (0x9000#16, 0xF00F#16)
  | .ldI _ => (0xA000#16, 0xF000#16)
  | .jpV0 _ => (0xB000#16, 0xF000#16)
  | .rnd _ _ => (0xC000#16, 0xF000#16)
  | .drw _ _ _ => (0xD000#16, 0xF000#16)
  | .skp _ => (0xE09E#16, 0xF0FF#16)
  | .sknp _ => (0xE0A1#16, 0xF0FF#16)
  | .ldVxDt _ => (0xF007#16, 0xF0FF#16)
  | .ldVxK _ => (0xF00A#16, 0xF0FF#16)
  | .ldDtVx _ => (0xF015#16, 0xF0FF#16)
  | .ldStVx _ => (0xF018#16, 0xF0FF#16)
  | .addIVx _ => (0xF01E#16, 0xF0FF#16)
  | .ldFVx _ => (0xF029#16, 0xF0FF#16)
  | .ldBVx _ => (0xF033#16, 0xF0FF#16)
  | .ldMemVx _ => (0xF055#16, 0xF0FF#16)
  | .ldVxMem _ => (0xF065#16, 0xF0FF#16)

/-- The word `w` selects the row of `i`: `w & mask == match`, CLS and RET before SYS (R51). -/
def Sys2Proof.SelectsRow (w : Word) (i : Instr) : Prop :=
  w &&& (opcodeRow i).2 = (opcodeRow i).1 ∧
    ((opcodeRow i).1 = 0x0000#16 → w ≠ 0x00E0#16 ∧ w ≠ 0x00EE#16)

/-- The decoder of R50 and the opcode map of R51 agree: a word decodes to an instruction exactly when it selects a
row, and the instruction is of that row (30_encoding.md section 3; row 1, SYS, is the spec's decision D4). -/
def Obligations.DecoderFollowsOpcodeMap : Prop :=
  (∀ (w : Word) (i : Instr), decode w = .instr i → SelectsRow w i) ∧
  (∀ (w : Word) (j : Instr), SelectsRow w j → ∃ i, decode w = .instr i ∧ opcodeRow i = opcodeRow j)

/-- Exactly the words of R52's table decode to UNKNOWN, and each as itself (the spec derives R52 from R50; its
decision D5 for groups 0x5 and 0x9). -/
def Obligations.UnknownWordsAreExactly : Prop :=
  ∀ w : Word,
    (decode w = .unknown w ∨ ∃ i, decode w = .instr i) ∧
    (decode w = .unknown w ↔
      (w.toNat / 4096 = 0x5 ∧ w.toNat % 16 ≠ 0) ∨
      (w.toNat / 4096 = 0x8 ∧ w.toNat % 16 ∈ [0x8, 0x9, 0xA, 0xB, 0xC, 0xD, 0xF]) ∨
      (w.toNat / 4096 = 0x9 ∧ w.toNat % 16 ≠ 0) ∨
      (w.toNat / 4096 = 0xE ∧ w.toNat % 256 ∉ [0x9E, 0xA1]) ∨
      (w.toNat / 4096 = 0xF ∧ w.toNat % 256 ∉ [0x07, 0x0A, 0x15, 0x18, 0x1E, 0x29, 0x33, 0x55, 0x65]))

/-- Words of each format, from 95_test_vectors.md section 2.1, decode as listed there. -/
def Obligations.WrittenWordsDecode : Prop :=
  decode 0x0FFF#16 = .instr (.sys 0xFFF) ∧ decode 0x00E0#16 = .instr .cls ∧ decode 0x00EE#16 = .instr .ret ∧
  decode 0x2ABC#16 = .instr (.call 0xABC) ∧ decode 0x3A55#16 = .instr (.seImm 0xA 0x55) ∧
  decode 0x5AB0#16 = .instr (.seReg 0xA 0xB) ∧ decode 0x8AB6#16 = .instr (.shr 0xA 0xB) ∧
  decode 0xA123#16 = .instr (.ldI 0x123) ∧ decode 0xC1FF#16 = .instr (.rnd 0x1 0xFF) ∧
  decode 0xD12F#16 = .instr (.drw 0x1 0x2 0xF) ∧ decode 0xE1A1#16 = .instr (.sknp 0x1) ∧
  decode 0xF165#16 = .instr (.ldVxMem 0x1) ∧ decode 0x5AB1#16 = .unknown 0x5AB1#16 ∧
  decode 0xF19E#16 = .unknown 0xF19E#16

/-! ## The step -/

/-- Outside a wait, with PC in the fetch window, a step is exactly `exec` of the instruction that the two bytes at
PC decode to, the byte at PC being the upper one: the step adds nothing around it, and `exec` moves PC
(R55, R36, R37; the window is the spec's decision D2). -/
def Obligations.StepRunsDecodedInstruction : Prop :=
  ∀ (s : State) (i : Instr), s.wait = none → 0x200 ≤ s.pc.toNat → s.pc.toNat + 1 ≤ 0xFFF →
    decode (Memory.read s.mem s.pc.toNat ++ Memory.read s.mem (s.pc.toNat + 1)) = .instr i →
    step s = exec i s

/-- A fetch outside 0x200 to 0xFFE raises MemoryFault with `pc` and `addr` both PC and no opcode, whatever memory
holds, and the state does not change (20_memory.md section 2, R37; the spec's decisions D2, D17, D18). -/
def Obligations.FetchOutsideWindowFaults : Prop :=
  ∀ s : State, s.wait = none → (s.pc.toNat < 0x200 ∨ s.pc.toNat + 1 > 0xFFF) →
    step s = .fault (.memoryFault s.pc s.pc.toNat none) ∧
    callStep s = (s, .fault (.memoryFault s.pc s.pc.toNat none) (decide (s.st.toNat > 0)))

/-- An UNKNOWN word raises UnknownInstruction with PC and the word; PC advances by 2 and nothing else changes
(40_execution_cycle.md section 3, R59; the spec's decision D18). -/
def Obligations.UnknownWordFaultsAndSkips : Prop :=
  ∀ (s : State) (w : Word), s.wait = none → 0x200 ≤ s.pc.toNat → s.pc.toNat + 1 ≤ 0xFFF →
    w = Memory.read s.mem s.pc.toNat ++ Memory.read s.mem (s.pc.toNat + 1) → decode w = .unknown w →
    step s = .fault (.unknownInstruction s.pc w) ∧
    callStep s = (({ s with pc := s.pc + 2#16 } : State),
      .fault (.unknownInstruction s.pc w) (decide (s.st.toNat > 0)))

/-- A step in the wait: with an empty latch nothing changes; else the number of the lowest latched key goes to the
waiting register, the wait ends, the latch clears, and PC and all else stay. It never faults
(40_execution_cycle.md section 1, R56; the spec's decision D16). -/
def Obligations.StepInWait : Prop :=
  ∀ (s : State) (x : Reg), s.wait = some x →
    (s.waitLatch = 0#16 → step s = .next s) ∧
    (s.waitLatch ≠ 0#16 → ∃ t, step s = .next t ∧ t.wait = none ∧ t.waitLatch = 0#16 ∧ t.pc = s.pc ∧
      (∃ k : Nat, k < 16 ∧ s.waitLatch.getLsbD k = true ∧ (∀ j, j < k → s.waitLatch.getLsbD j = false) ∧
        (t.getV x).toNat = k) ∧
      RegsBut [x] s t ∧ KeepsBut [.regs, .wait] s t)

/-- What a faulting step leaves: for every fault but UnknownInstruction the state before the step, and a second step
raises the same fault (40_execution_cycle.md section 3, R60; the spec's decision D18). -/
def Obligations.FaultingStepKeepsState : Prop :=
  ∀ (s : State) (f : Fault), step s = .fault f → f.code ≠ 4 →
    (callStep s).1 = s ∧ (callStep s).2 = .fault f (decide (s.st.toNat > 0)) ∧ step (callStep s).1 = .fault f

/-- No step, in any state, is refused: every word has a meaning or a fault of its own (30_encoding.md section 3). -/
def Obligations.StepNeverRefuses : Prop := ∀ (s : State) (r : Refusal), step s ≠ .refused r

/-- The lowest bad address of the `n` bytes at `base` is `a`. -/
def Sys2Proof.Machine.LowestBad (base n a : Nat) : Prop :=
  0xFFF < a ∧ base ≤ a ∧ a < base + n ∧ ∀ b, base ≤ b → b < a → b ≤ 0xFFF

/-- The faults an instruction itself raises, each with its cause and its record (R102's table; the opcode is the
instruction's word). -/
def Sys2Proof.Machine.FaultCause (s : State) (i : Instr) (f : Fault) : Prop :=
  match i with
  | .call _ => s.sp.val = 16 ∧ f = .stackOverflow s.pc (encode i)
  | .ret => s.sp.val = 0 ∧ f = .stackUnderflow s.pc (encode i)
  | .skp x => 0x0F < (s.getV x).toNat ∧ f = .operandRange s.pc (encode i) (s.getV x)
  | .sknp x => 0x0F < (s.getV x).toNat ∧ f = .operandRange s.pc (encode i) (s.getV x)
  | .ldFVx x => 0x0F < (s.getV x).toNat ∧ f = .operandRange s.pc (encode i) (s.getV x)
  | .drw _ _ n => ∃ a, LowestBad s.i.toNat n.val a ∧ f = .memoryFault s.pc a (some (encode i))
  | .ldBVx _ => ∃ a, LowestBad s.i.toNat 3 a ∧ f = .memoryFault s.pc a (some (encode i))
  | .ldMemVx x => ∃ a, LowestBad s.i.toNat (x.val + 1) a ∧ f = .memoryFault s.pc a (some (encode i))
  | .ldVxMem x => ∃ a, LowestBad s.i.toNat (x.val + 1) a ∧ f = .memoryFault s.pc a (some (encode i))
  | .sys _ | .cls | .jp _ | .seImm _ _ | .sneImm _ _ | .seReg _ _ | .ldImm _ _ | .addImm _ _ | .ldReg _ _ | .or _ _
  | .and _ _ | .xor _ _ | .addReg _ _ | .sub _ _ | .shr _ _ | .subn _ _ | .shl _ _ | .sneReg _ _ | .ldI _ | .jpV0 _
  | .rnd _ _ | .ldVxDt _ | .ldVxK _ | .ldDtVx _ | .ldStVx _ | .addIVx _ => False

/-- An instruction raises a fault exactly where R102's table says so, with the record the table gives; no other
instruction raises one, and the lowest bad address is reported (60_exceptions.md section 1, R102, R103; 20_memory.md
R39; the spec's decisions D15, D17, D18, D19). -/
def Obligations.InstructionFaultsExactlyAsListed : Prop :=
  ∀ (s : State) (i : Instr) (f : Fault), exec i s = .fault f ↔ FaultCause s i f

/-- `display_changed` is true exactly when the step completed a CLS or a DRW, and `sound_active` is `ST > 0` in the
state after the step, of a faulting step too (40_execution_cycle.md section 1, R54; the spec's decision D20). -/
def Obligations.StepResultFlags : Prop :=
  (∀ (s t : State), step s = .next t → ∃ d : Bool, callStep s = (t, .ok d (decide (t.st.toNat > 0))) ∧
    (d = true ↔ s.wait = none ∧ 0x200 ≤ s.pc.toNat ∧ s.pc.toNat + 1 ≤ 0xFFF ∧
      (decode (Memory.read s.mem s.pc.toNat ++ Memory.read s.mem (s.pc.toNat + 1)) = .instr .cls ∨
       ∃ x y n, decode (Memory.read s.mem s.pc.toNat ++ Memory.read s.mem (s.pc.toNat + 1)) = .instr (.drw x y n)))) ∧
  (∀ (s : State) (f : Fault), step s = .fault f → (callStep s).2 = .fault f (decide ((callStep s).1.st.toNat > 0)))

/-! ## Invariants -/

/-- The invariant holds after reset. The clause on memory's canonical form is the model's own
representation (notes/assumptions/2.md, DESIGN CHOICE); the clauses on PC, on the stack's entries and on the latch rest on
the spec's decisions D2, D21 and D16, and the cleared stack and latch on D22 (70_reset_and_hazards.md section 1). -/
def Obligations.ResetMeetsInvariant : Prop := Inv State.reset

/-- Every step keeps the invariant, from every state that meets it. The clause on memory's canonical form is the model's own
representation (notes/assumptions/2.md, DESIGN CHOICE); the clauses on PC, on the stack's entries and on the latch rest on
the spec's decisions D2, D21 and D16 (10_state.md sections 3, 4 and 7). -/
def Obligations.StepKeepsInvariant : Prop := ∀ s t : State, Inv s → step s = .next t → Inv t

/-- Every schedule of host operations keeps the invariant: steps, faulting ones too, ticks, key events, loads and resets
in any order (60_exceptions.md section 6). The clause on memory's canonical form is the model's own
representation (notes/assumptions/2.md, DESIGN CHOICE); the clauses on PC, on the stack's entries and on the latch rest on
the spec's decisions D2, D21 and D16; what a faulting step leaves rests on D18 and notes/assumptions/5.md (DEDUCED), a load
that is refused on D23 and notes/assumptions/10.md (DEDUCED), a reset on D22. -/
def Obligations.ScheduleKeepsInvariant : Prop := ∀ (ops : List HostOp) (s : State), Inv s → Inv (runOps ops s)

/-- A read sees the last write to its address, and a write leaves every other address alone (20_memory.md
section 4). -/
def Obligations.ReadAfterWrite : Prop :=
  ∀ (m : Memory) (a b : Nat) (x : Byte), Memory.wf m = true →
    Memory.read (Memory.write m a x) b = if b = a then x else Memory.read m b

/-- A write at an address that exists keeps the canonical form, and two memories in that form that read alike at
every address are equal (the model's own representation, notes/assumptions/2.md). -/
def Obligations.MemoryFormIsCanonical : Prop :=
  (∀ (m : Memory) (a : Nat) (x : Byte), Memory.wf m = true → a ≤ 0xFFF → Memory.wf (Memory.write m a x) = true) ∧
  (∀ m m' : Memory, Memory.wf m = true → Memory.wf m' = true →
    (∀ a, Memory.read m a = Memory.read m' a) → m = m')

/-! ## Reset -/

/-- What `reset()` leaves in every field of `S`: the font in memory and zeros elsewhere, PC at 0x200
(70_reset_and_hazards.md section 1; the spec's decisions D14 for the font and D22 for KEY, WAIT, WAIT_LATCH and
program memory). The count of random bytes drawn, which is the model's own, goes on (notes/assumptions/3.md). -/
def Obligations.ResetValues : Prop :=
  ∀ s : State, ∃ t, HostOp.apply .reset s = t ∧
    (∀ x, t.getV x = 0x00#8) ∧ t.i = 0x0000#16 ∧ t.pc = 0x0200#16 ∧ t.sp.val = 0 ∧
    (∀ k : Fin 16, t.stack[k.val] = 0x0000#16) ∧ t.dt = 0x00#8 ∧ t.st = 0x00#8 ∧
    (∀ a, a ≤ 0xFFF → Memory.read t.mem a = if a < 80 then fontBytes.getD a 0x00#8 else 0x00#8) ∧
    (∀ x y, Framebuffer.pixel t.fb x y = false) ∧ (∀ k : Fin 16, t.key[k.val] = false) ∧
    t.wait = none ∧ t.waitLatch = 0x0000#16 ∧ ({ t with draws := 0 } : State) = State.reset

/-! ## Whole-machine rules -/

/-- No instruction but 00E0 and DXYN changes the framebuffer, and no instruction but FX33 and FX55 changes a byte of
memory (10_state.md section 6; 20_memory.md section 3). -/
def Obligations.FramebufferAndMemoryWriters : Prop :=
  ∀ (i : Instr) (s t : State), exec i s = .next t →
    (i ≠ .cls → (∀ x y n, i ≠ .drw x y n) → t.fb = s.fb) ∧
    ((∀ x, i ≠ .ldBVx x) → (∀ x, i ≠ .ldMemVx x) → ∀ a, Memory.read t.mem a = Memory.read s.mem a)

/-- Among the instructions, only ANNN, FX1E and FX29 write I, only 2NNN and 00EE touch the stack or SP, only FX15 writes DT,
only FX18 writes ST, only FX0A writes WAIT and WAIT_LATCH, and none writes KEY (10_state.md sections 4, 6 and 7; the spec's
decisions D9 for I after FX55 and FX65, D21 for the stack). -/
def Obligations.SpecialRegisterWriters : Prop :=
  ∀ (i : Instr) (s t : State), exec i s = .next t →
    ((∀ nnn, i ≠ .ldI nnn) → (∀ x, i ≠ .addIVx x) → (∀ x, i ≠ .ldFVx x) → t.i = s.i) ∧
    ((∀ nnn, i ≠ .call nnn) → i ≠ .ret → t.sp = s.sp ∧ t.stack = s.stack) ∧
    ((∀ x, i ≠ .ldDtVx x) → t.dt = s.dt) ∧ ((∀ x, i ≠ .ldStVx x) → t.st = s.st) ∧
    ((∀ x, i ≠ .ldVxK x) → t.wait = s.wait ∧ t.waitLatch = s.waitLatch) ∧ t.key = s.key

/-- The registers an instruction may write (R20's table; FX0A writes its register in a later step). -/
def Sys2Proof.Machine.writtenRegs : Instr → List Reg
  | .ldImm x _ | .addImm x _ | .ldReg x _ | .or x _ | .and x _ | .xor x _ | .rnd x _ | .ldVxDt x => [x]
  | .addReg x _ | .sub x _ | .shr x _ | .subn x _ | .shl x _ => [x, regVF]
  | .drw _ _ _ => [regVF]
  | .ldVxMem x => (List.finRange 16).filter fun r => r ≤ x
  | .sys _ | .cls | .ret | .jp _ | .call _ | .seImm _ _ | .sneImm _ _ | .seReg _ _ | .sneReg _ _ | .ldI _ | .jpV0 _
  | .skp _ | .sknp _ | .ldVxK _ | .ldDtVx _ | .ldStVx _ | .addIVx _ | .ldFVx _ | .ldBVx _ | .ldMemVx _ => []

/-- An instruction changes no register but those R18 and R20 name for it: VF in particular, only as a flag or as its
destination (10_state.md section 2; the spec derives R20, and decides D8). -/
def Obligations.RegistersChangeOnlyAsListed : Prop :=
  ∀ (i : Instr) (s t : State), exec i s = .next t → RegsBut (writtenRegs i) s t

/-- The next PC of each instruction (R58's table). -/
def Sys2Proof.Machine.nextPc (s : State) : Instr → Nat → Prop
  | .ret, p => ∃ h : s.sp.val - 1 < 16, p = (s.stack[s.sp.val - 1]'h).toNat
  | .jp nnn, p => p = nnn.toNat
  | .call nnn, p => p = nnn.toNat
  | .jpV0 nnn, p => p = nnn.toNat + (s.getV 0).toNat
  | .seImm x nn, p => p = s.pc.toNat + if s.getV x = nn then 4 else 2
  | .sneImm x nn, p => p = s.pc.toNat + if s.getV x ≠ nn then 4 else 2
  | .seReg x y, p => p = s.pc.toNat + if s.getV x = s.getV y then 4 else 2
  | .sneReg x y, p => p = s.pc.toNat + if s.getV x ≠ s.getV y then 4 else 2
  | .skp x, p => p = s.pc.toNat + if s.key.toList.getD (s.getV x).toNat false = true then 4 else 2
  | .sknp x, p => p = s.pc.toNat + if s.key.toList.getD (s.getV x).toNat false = false then 4 else 2
  | .sys _, p | .cls, p | .ldImm _ _, p | .addImm _ _, p | .ldReg _ _, p | .or _ _, p | .and _ _, p | .xor _ _, p
  | .addReg _ _, p | .sub _ _, p | .shr _ _, p | .subn _ _, p | .shl _ _, p | .ldI _, p | .rnd _ _, p | .drw _ _ _, p
  | .ldVxDt _, p | .ldVxK _, p | .ldDtVx _, p | .ldStVx _, p | .addIVx _, p | .ldFVx _, p | .ldBVx _, p | .ldMemVx _, p
  | .ldVxMem _, p => p = s.pc.toNat + 2

/-- How each instruction sets PC, for every PC an instruction can be fetched at; PC is never reduced to 12 bits and
never wraps (40_execution_cycle.md section 2, R58; 10_state.md R22; the spec's decisions D2, D10). -/
def Obligations.NextPcOfEveryInstruction : Prop :=
  ∀ (i : Instr) (s t : State), s.pc.toNat ≤ 0xFFE → exec i s = .next t → nextPc s i t.pc.toNat

/-- No instruction reads ST: with another value in ST the same step is taken, and ST is carried along, except that FX18
overwrites it (10_state.md section 4, R25). -/
def Obligations.NoInstructionReadsSoundTimer : Prop :=
  ∀ (i : Instr) (s : State) (b : Byte),
    ((∀ x, i ≠ .ldStVx x) → exec i (s.setSt b) = mapNext (fun t => t.setSt b) (exec i s)) ∧
    (∀ x, i = .ldStVx x → exec i (s.setSt b) = exec i s)

/-- The key-down flags reach an instruction through EX9E and EXA1 alone: any other instruction does the same whatever
keys are down (40_execution_cycle.md section 1, R57; 10_state.md section 6, R28). -/
def Obligations.OnlyKeySkipsReadKeys : Prop :=
  ∀ (i : Instr) (s : State) (keys : Vector Bool 16), (∀ x, i ≠ .skp x) → (∀ x, i ≠ .sknp x) →
    exec i { s with key := keys } = mapNext (fun t => { t with key := keys }) (exec i s)

/-! ## Display -/

/-- CLS clears every pixel, writes nothing else but PC, and sets `display_changed` (41_display.md section 1, R62; the spec's
decision D20 for `display_changed`). -/
def Obligations.ClsClearsDisplay : Prop :=
  (∀ s : State, ∃ t, exec .cls s = .next t ∧ (∀ x y, Framebuffer.pixel t.fb x y = false) ∧ t.pc = s.pc + 2#16 ∧
    KeepsBut [.fb] s t) ∧
  (∀ s : State, s.nextInstr = some .cls → (callStep s).2 = .ok true (decide (s.st.toNat > 0)))

/-- The sprite covers the pixel (x, y): it lies in the N rows from `V[Y] mod 32` and the eight columns from `V[X] mod 64`,
and its bit in its row's byte, bit 7 leftmost, is 1. -/
def Sys2Proof.Machine.SpriteCovers (s : State) (vx vy : Reg) (n : Fin 16) (x : Fin 64) (y : Fin 32) : Prop :=
  (s.getV vx).toNat % 64 ≤ x.val ∧ x.val < (s.getV vx).toNat % 64 + 8 ∧
  (s.getV vy).toNat % 32 ≤ y.val ∧ y.val < (s.getV vy).toNat % 32 + n.val ∧
  (Memory.read s.mem (s.i.toNat + (y.val - (s.getV vy).toNat % 32))).getLsbD
    (7 - (x.val - (s.getV vx).toNat % 64)) = true

/-- DRW: with every row address at most 0xFFF (none is needed for N = 0), exactly the pixels the clipped sprite covers
are toggled, VF is 1 if one of them was on and 0 if none was, and nothing else changes but PC; else it faults with the
lowest bad address (41_display.md section 2, R63 to R65; the spec's decisions D12 for clipping and N = 0, D13 for the bit
order). -/
def Obligations.DrwTogglesCoveredPixels : Prop :=
  ∀ (s : State) (vx vy : Reg) (n : Fin 16),
    ((n.val = 0 ∨ s.i.toNat + (n.val - 1) ≤ 0xFFF) →
      ∃ t, exec (.drw vx vy n) s = .next t ∧
        (∀ x y, SpriteCovers s vx vy n x y → Framebuffer.pixel t.fb x y = !Framebuffer.pixel s.fb x y) ∧
        (∀ x y, ¬ SpriteCovers s vx vy n x y → Framebuffer.pixel t.fb x y = Framebuffer.pixel s.fb x y) ∧
        ((∃ x y, SpriteCovers s vx vy n x y ∧ Framebuffer.pixel s.fb x y = true) → t.getV 15 = 0x01#8) ∧
        ((¬ ∃ x y, SpriteCovers s vx vy n x y ∧ Framebuffer.pixel s.fb x y = true) → t.getV 15 = 0x00#8) ∧
        t.pc = s.pc + 2#16 ∧ RegsBut [15] s t ∧ KeepsBut [.regs, .fb] s t) ∧
    (∀ a, LowestBad s.i.toNat n.val a →
      exec (.drw vx vy n) s = .fault (.memoryFault s.pc a (some (encode (.drw vx vy n)))))

/-- Drawing the same sprite twice at the same place restores the framebuffer. If the display was clear before, the first
drawing shows exactly the visible part of the sprite, and the second sets VF to 1 if there is such a part (R66, which the
spec derives from R62 and R65; the spec's decisions D12, D13). That VF is claimed over a clear display alone is the
model's reading of R65's corner case (notes/assumptions/8.md, DEDUCED). The place is the same when neither coordinate is
VF, which DRW writes; DrwTogglesCoveredPixels covers each drawing of the forms with X or Y = F. -/
def Obligations.DrawTwiceRestores : Prop :=
  ∀ (s t u : State) (vx vy : Reg) (n : Fin 16), vx ≠ 15 → vy ≠ 15 →
    exec (.drw vx vy n) s = .next t → exec (.drw vx vy n) t = .next u →
    u.fb = s.fb ∧
    ((∃ x y, SpriteCovers s vx vy n x y) → (∀ x y, Framebuffer.pixel s.fb x y = false) → u.getV 15 = 0x01#8) ∧
    ((∀ x y, Framebuffer.pixel s.fb x y = false) →
      ∀ x y, Framebuffer.pixel t.fb x y = true ↔ SpriteCovers s vx vy n x y)

/-! ## Control flow -/

/-- SYS only advances PC (42_control_flow.md section 2, R68; the spec's decision D4). -/
def Obligations.SysOnlyAdvancesPc : Prop :=
  ∀ (s : State) (nnn : Addr12), ∃ t, exec (.sys nnn) s = .next t ∧ t.pc = s.pc + 2#16 ∧ KeepsBut [] s t

/-- JP sets PC to NNN and changes nothing else; the next fetch faults if NNN is below 0x200 or is 0xFFF
(42_control_flow.md section 2, R69; the spec's decision D2 for the fetch window). -/
def Obligations.JpSetsPc : Prop :=
  ∀ (s : State) (nnn : Addr12), ∃ t, exec (.jp nnn) s = .next t ∧ t.pc.toNat = nnn.toNat ∧ KeepsBut [] s t ∧
    (s.wait = none → nnn.toNat < 0x200 ∨ nnn.toNat = 0xFFF →
      step t = .fault (.memoryFault t.pc nnn.toNat none))

/-- CALL with a free entry pushes the address of the word after it, raises the depth by one and jumps; the other entries
stay (42_control_flow.md section 2, R70; the spec's decision D21). -/
def Obligations.CallPushesReturnAddress : Prop :=
  ∀ (s : State) (nnn : Addr12) (h : s.sp.val < 16), ∃ t, exec (.call nnn) s = .next t ∧
    t.stack[s.sp.val] = s.pc + 2#16 ∧ (∀ k : Fin 16, k.val ≠ s.sp.val → t.stack[k.val] = s.stack[k.val]) ∧
    t.sp.val = s.sp.val + 1 ∧ t.pc.toNat = nnn.toNat ∧ KeepsBut [.stack] s t

/-- Sixteen nested calls from an empty stack complete, and the 17th raises StackOverflow and changes nothing
(42_control_flow.md section 2, R70; the spec's decisions D18, D21). -/
def Obligations.SeventeenthNestedCallOverflows : Prop :=
  ∀ (s : State) (targets : List Addr12), s.sp.val = 0 → targets.length = 16 →
    ∃ t, execSeq (targets.map .call) s = .next t ∧ t.sp.val = 16 ∧
      ∀ nnn, exec (.call nnn) t = .fault (.stackOverflow t.pc (encode (.call nnn)))

/-- RET: with an entry in use, PC takes the top entry and the depth falls by one, the entry keeping its value; with none,
StackUnderflow. A CALL and then a RET return to the word after the call, with the depth it had (42_control_flow.md section 2,
R71; the spec's decisions D18, D21). -/
def Obligations.RetPopsReturnAddress : Prop :=
  (∀ (s : State) (_ : 0 < s.sp.val) (h : s.sp.val - 1 < 16), ∃ t, exec .ret s = .next t ∧ t.pc = s.stack[s.sp.val - 1] ∧
    t.sp.val = s.sp.val - 1 ∧ t.stack = s.stack ∧ KeepsBut [.stack] s t) ∧
  (∀ s : State, s.sp.val = 0 → exec .ret s = .fault (.stackUnderflow s.pc 0x00EE#16) ∧
    s.afterFault (.stackUnderflow s.pc 0x00EE#16) = s) ∧
  (∀ (s t u : State) (nnn : Addr12), exec (.call nnn) s = .next t → u.sp = t.sp → u.stack = t.stack →
    ∃ r, exec .ret u = .next r ∧ r.pc = s.pc + 2#16 ∧ r.sp = s.sp)

/-- Any nest of calls that fits the stack unwinds: as many returns as calls bring PC to the word after the first call,
the depth to what it was, and leave every entry below it and all other state as they were (42_control_flow.md
section 2; the spec's decision D21). -/
def Obligations.CallsUnwind : Prop :=
  ∀ (s : State) (targets : List Addr12), targets ≠ [] → s.sp.val + targets.length ≤ 16 →
    ∃ t, execSeq (targets.map .call ++ List.replicate targets.length .ret) s = .next t ∧
      t.pc = s.pc + 2#16 ∧ t.sp = s.sp ∧ (∀ k : Fin 16, k.val < s.sp.val → t.stack[k.val] = s.stack[k.val]) ∧
      KeepsBut [.stack] s t

/-- Zeroed memory is a run of no-ops: with every byte from PC to 0xFFF zero and PC even, the steps up to PC = 0x1000 are a
safe run that changes nothing but PC, and the step after it is the fetch fault (42_control_flow.md section 2, R68;
the spec's decisions D2, D4). -/
def Obligations.ZeroedMemoryRunsToFetchFault : Prop :=
  ∀ (s : State) (n : Nat), s.wait = none → 0x200 ≤ s.pc.toNat → s.pc.toNat + 2 * n = 0x1000 →
    (∀ a, s.pc.toNat ≤ a → a ≤ 0xFFF → Memory.read s.mem a = 0x00#8) →
    SafeRun (List.replicate n .step) s ∧ runOps (List.replicate n .step) s = { s with pc := 0x1000#16 } ∧
    step (runOps (List.replicate n .step) s) = .fault (.memoryFault 0x1000#16 0x1000 none)

/-- JP V0 jumps to NNN + V0, not reduced to 12 bits (42_control_flow.md section 2, R72; the spec's decision D10). -/
def Obligations.JpV0AddsV0 : Prop :=
  ∀ (s : State) (nnn : Addr12), ∃ t, exec (.jpV0 nnn) s = .next t ∧
    t.pc.toNat = nnn.toNat + (s.getV 0).toNat ∧ KeepsBut [] s t

/-- 3XNN skips the next word if VX equals NN, and 4XNN if it does not. -/
def Obligations.SkipsOnImmediate : Prop :=
  ∀ (s : State) (x : Reg) (nn : Byte),
    (∃ t, exec (.seImm x nn) s = .next t ∧ t.pc = s.pc + (if s.getV x = nn then 4#16 else 2#16) ∧ KeepsBut [] s t) ∧
    (∃ t, exec (.sneImm x nn) s = .next t ∧ t.pc = s.pc + (if s.getV x = nn then 2#16 else 4#16) ∧ KeepsBut [] s t)

/-- 5XY0 skips the next word if VX equals VY, and 9XY0 if it does not (42_control_flow.md section 3, R75, R76). -/
def Obligations.SkipsOnRegisters : Prop :=
  ∀ (s : State) (x y : Reg),
    (∃ t, exec (.seReg x y) s = .next t ∧ t.pc = s.pc + (if s.getV x = s.getV y then 4#16 else 2#16) ∧ KeepsBut [] s t) ∧
    (∃ t, exec (.sneReg x y) s = .next t ∧ t.pc = s.pc + (if s.getV x = s.getV y then 2#16 else 4#16) ∧ KeepsBut [] s t)

/-! ## Registers and ALU -/

/-- 6XNN loads NN into VX and 8XY0 loads VY; VF changes only if it is VX. -/
def Obligations.LoadsWriteVx : Prop :=
  ∀ (s : State) (x y : Reg) (nn : Byte),
    (∃ t, exec (.ldImm x nn) s = .next t ∧ t.getV x = nn ∧ t.pc = s.pc + 2#16 ∧
      RegsBut [x] s t ∧ KeepsBut [.regs] s t) ∧
    (∃ t, exec (.ldReg x y) s = .next t ∧ t.getV x = s.getV y ∧ t.pc = s.pc + 2#16 ∧
      RegsBut [x] s t ∧ KeepsBut [.regs] s t)

/-- 7XNN adds NN to VX mod 256, and no flag is written: VF changes only if it is VX. -/
def Obligations.AddImmediateWritesNoFlag : Prop :=
  ∀ (s : State) (x : Reg) (nn : Byte),
    ∃ t, exec (.addImm x nn) s = .next t ∧ (t.getV x).toNat = ((s.getV x).toNat + nn.toNat) % 256 ∧
      t.pc = s.pc + 2#16 ∧ RegsBut [x] s t ∧ KeepsBut [.regs] s t

/-- 8XY1, 8XY2 and 8XY3 write the bitwise OR, AND and XOR, bit by bit, and leave VF alone unless it is VX
(43_alu.md section 3, R81 to R83; the spec's decision D8). -/
def Obligations.LogicWritesNoFlag : Prop :=
  ∀ (s : State) (x y : Reg),
    (∃ t, exec (.or x y) s = .next t ∧
      (∀ k, (t.getV x).getLsbD k = ((s.getV x).getLsbD k || (s.getV y).getLsbD k)) ∧
      t.pc = s.pc + 2#16 ∧ RegsBut [x] s t ∧ KeepsBut [.regs] s t) ∧
    (∃ t, exec (.and x y) s = .next t ∧
      (∀ k, (t.getV x).getLsbD k = ((s.getV x).getLsbD k && (s.getV y).getLsbD k)) ∧
      t.pc = s.pc + 2#16 ∧ RegsBut [x] s t ∧ KeepsBut [.regs] s t) ∧
    (∃ t, exec (.xor x y) s = .next t ∧
      (∀ k, (t.getV x).getLsbD k = ((s.getV x).getLsbD k != (s.getV y).getLsbD k)) ∧
      t.pc = s.pc + 2#16 ∧ RegsBut [x] s t ∧ KeepsBut [.regs] s t)

/-- 8XY4: the sum mod 256 in VX, the carry in VF; with X = F the carry is what VF holds (43_alu.md section 3, R84; the
spec's decision D7 for X = F). -/
def Obligations.AddSetsCarry : Prop :=
  ∀ (s : State) (x y : Reg), ∃ t, exec (.addReg x y) s = .next t ∧
    (x ≠ 15 → (t.getV x).toNat = ((s.getV x).toNat + (s.getV y).toNat) % 256) ∧
    t.getV 15 = (if (s.getV x).toNat + (s.getV y).toNat > 255 then 0x01#8 else 0x00#8) ∧
    t.pc = s.pc + 2#16 ∧ RegsBut [x, 15] s t ∧ KeepsBut [.regs] s t

/-- 8XY5 and 8XY7: the difference mod 256 in VX, VF = 1 exactly when no borrow occurs; with X = F the flag is what VF
holds (43_alu.md section 3, R85, R87; the spec's decision D7 for X = F). -/
def Obligations.SubtractSetsNoBorrow : Prop :=
  ∀ (s : State) (x y : Reg),
    (∃ t, exec (.sub x y) s = .next t ∧
      (x ≠ 15 → ((t.getV x).toNat : Int) = ((s.getV x).toNat - (s.getV y).toNat : Int) % 256) ∧
      t.getV 15 = (if (s.getV x).toNat ≥ (s.getV y).toNat then 0x01#8 else 0x00#8) ∧
      t.pc = s.pc + 2#16 ∧ RegsBut [x, 15] s t ∧ KeepsBut [.regs] s t) ∧
    (∃ t, exec (.subn x y) s = .next t ∧
      (x ≠ 15 → ((t.getV x).toNat : Int) = ((s.getV y).toNat - (s.getV x).toNat : Int) % 256) ∧
      t.getV 15 = (if (s.getV y).toNat ≥ (s.getV x).toNat then 0x01#8 else 0x00#8) ∧
      t.pc = s.pc + 2#16 ∧ RegsBut [x, 15] s t ∧ KeepsBut [.regs] s t)

/-- 8XY6 and 8XYE shift VX in place by one and put the bit shifted out in VF; VY has no effect (43_alu.md section 3, R86,
R88; the spec's decisions D6, D7). -/
def Obligations.ShiftsMoveBitOut : Prop :=
  ∀ (s : State) (x y : Reg),
    (∃ t, exec (.shr x y) s = .next t ∧ (x ≠ 15 → (t.getV x).toNat = (s.getV x).toNat / 2) ∧
      (t.getV 15).toNat = (s.getV x).toNat % 2 ∧
      t.pc = s.pc + 2#16 ∧ RegsBut [x, 15] s t ∧ KeepsBut [.regs] s t) ∧
    (∃ t, exec (.shl x y) s = .next t ∧ (x ≠ 15 → (t.getV x).toNat = (2 * (s.getV x).toNat) % 256) ∧
      (t.getV 15).toNat = (s.getV x).toNat / 128 ∧
      t.pc = s.pc + 2#16 ∧ RegsBut [x, 15] s t ∧ KeepsBut [.regs] s t)

/-- CXNN: VX takes a byte of which every bit that is 0 in NN is 0; it is NN masked with the free byte of this state, the
next draw takes the next free byte, and the same holds whatever byte is drawn (43_alu.md section 4, R89; the spec's
decision D24; notes/assumptions/1.md). -/
def Obligations.RndMasksDrawnByte : Prop :=
  ∀ (s : State) (x : Reg) (nn : Byte),
    (∃ t, exec (.rnd x nn) s = .next t ∧ t.getV x = Config.drawRandom s.draws &&& nn ∧
      (∀ k, nn.getLsbD k = false → (t.getV x).getLsbD k = false) ∧ t.draws = s.draws + 1 ∧
      t.pc = s.pc + 2#16 ∧ RegsBut [x] s t ∧ KeepsBut [.regs, .draws] s t) ∧
    (∀ r : Byte, ∃ t, State.rndWith r x nn s = .next t ∧
      (∀ k, (t.getV x).getLsbD k = (r.getLsbD k && nn.getLsbD k)) ∧
      t.pc = s.pc + 2#16 ∧ RegsBut [x] s t ∧ KeepsBut [.regs] s t)

/-! ## The index register and memory -/

/-- ANNN sets I to NNN and changes nothing else but PC. -/
def Obligations.LdISetsIndex : Prop :=
  ∀ (s : State) (nnn : Addr12), ∃ t, exec (.ldI nnn) s = .next t ∧ t.i.toNat = nnn.toNat ∧ t.pc = s.pc + 2#16 ∧
    KeepsBut [.i] s t

/-- FX1E adds VX to I mod 65536, with no fault above 0xFFF and no flag (44_index_memory.md section 1, R91; the spec's
decisions D11, D31). -/
def Obligations.AddIndexWrapsAt16Bits : Prop :=
  ∀ (s : State) (x : Reg), ∃ t, exec (.addIVx x) s = .next t ∧
    t.i.toNat = (s.i.toNat + (s.getV x).toNat) % 65536 ∧ t.pc = s.pc + 2#16 ∧ KeepsBut [.i] s t

/-- FX29: I takes the address of VX's glyph, 5 bytes a glyph from 0x000; VX above 0x0F raises OperandRange
(44_index_memory.md section 1, R92; the spec's decisions D14, D15). -/
def Obligations.LdFPointsAtGlyph : Prop :=
  ∀ (s : State) (x : Reg),
    ((s.getV x).toNat ≤ 0x0F → ∃ t, exec (.ldFVx x) s = .next t ∧ t.i.toNat = 0x000 + 5 * (s.getV x).toNat ∧
      t.pc = s.pc + 2#16 ∧ KeepsBut [.i] s t) ∧
    ((s.getV x).toNat > 0x0F →
      exec (.ldFVx x) s = .fault (.operandRange s.pc (encode (.ldFVx x)) (s.getV x)))

/-- FX33 stores the hundreds, tens and ones digits of VX at I, I+1 and I+2 and nothing else; where I+2 is above 0xFFF it
raises MemoryFault with the lowest bad address, and nothing is written (44_index_memory.md section 2, R93; the spec's
decisions D1, D18). -/
def Obligations.BcdStoresThreeDigits : Prop :=
  ∀ (s : State) (x : Reg), Memory.wf s.mem = true →
    (s.i.toNat + 2 ≤ 0xFFF → ∃ t, exec (.ldBVx x) s = .next t ∧
      (Memory.read t.mem s.i.toNat).toNat = (s.getV x).toNat / 100 ∧
      (Memory.read t.mem (s.i.toNat + 1)).toNat = (s.getV x).toNat / 10 % 10 ∧
      (Memory.read t.mem (s.i.toNat + 2)).toNat = (s.getV x).toNat % 10 ∧
      BytesBut s.i.toNat 3 s t ∧ t.pc = s.pc + 2#16 ∧ KeepsBut [.mem] s t) ∧
    (∀ a, LowestBad s.i.toNat 3 a → exec (.ldBVx x) s = .fault (.memoryFault s.pc a (some (encode (.ldBVx x)))) ∧
      s.afterFault (.memoryFault s.pc a (some (encode (.ldBVx x)))) = s)

/-- FX55 stores V0 to VX, inclusive, from I up and nothing else, I unchanged; a bad address raises MemoryFault with the
lowest one, and nothing is written (44_index_memory.md section 2, R94; the spec's decisions D1, D9, D18). -/
def Obligations.StoreRegistersToMemory : Prop :=
  ∀ (s : State) (x : Reg), Memory.wf s.mem = true →
    (s.i.toNat + x.val ≤ 0xFFF → ∃ t, exec (.ldMemVx x) s = .next t ∧
      (∀ k : Reg, k ≤ x → Memory.read t.mem (s.i.toNat + k.val) = s.getV k) ∧
      BytesBut s.i.toNat (x.val + 1) s t ∧ t.pc = s.pc + 2#16 ∧ KeepsBut [.mem] s t) ∧
    (∀ a, LowestBad s.i.toNat (x.val + 1) a →
      exec (.ldMemVx x) s = .fault (.memoryFault s.pc a (some (encode (.ldMemVx x)))))

/-- FX65 loads V0 to VX, inclusive, from I up, changes no other register and not I; a bad address raises MemoryFault with
the lowest one, and no register changes (44_index_memory.md section 2, R95; the spec's decisions D1, D9, D18). -/
def Obligations.LoadRegistersFromMemory : Prop :=
  ∀ (s : State) (x : Reg),
    (s.i.toNat + x.val ≤ 0xFFF → ∃ t, exec (.ldVxMem x) s = .next t ∧
      (∀ k : Reg, k ≤ x → t.getV k = Memory.read s.mem (s.i.toNat + k.val)) ∧
      (∀ k : Reg, x < k → t.getV k = s.getV k) ∧ t.pc = s.pc + 2#16 ∧ KeepsBut [.regs] s t) ∧
    (∀ a, LowestBad s.i.toNat (x.val + 1) a →
      exec (.ldVxMem x) s = .fault (.memoryFault s.pc a (some (encode (.ldVxMem x)))))

/-- What FX55 stores, a later FX65 at the same I with the same X brings back, whatever the registers hold by then
(44_index_memory.md section 2; the spec's decision D9). -/
def Obligations.StoreThenLoadRestoresRegisters : Prop :=
  ∀ (s t u r : State) (x : Reg), Memory.wf s.mem = true → exec (.ldMemVx x) s = .next t →
    u.mem = t.mem → u.i = s.i → exec (.ldVxMem x) u = .next r → ∀ k : Reg, k ≤ x → r.getV k = s.getV k

/-- A byte FX55 writes is what the very next fetch sees: with the next word inside the stored bytes, the next step runs
the instruction the registers spell (20_memory.md section 4, R43; the spec's decision D26). -/
def Obligations.StoredCodeIsFetchedNext : Prop :=
  ∀ (s t : State) (x k : Reg) (i : Instr), Memory.wf s.mem = true → s.wait = none →
    exec (.ldMemVx x) s = .next t → k < x → (s.pc + 2#16).toNat = s.i.toNat + k.val → 0x200 ≤ (s.pc + 2#16).toNat →
    decode (s.getV k ++ s.getV (k + 1)) = .instr i → step t = exec i t

/-! ## Keypad and timers -/

/-- EX9E skips if the key numbered VX is down and EXA1 if it is up; VX above 0x0F raises OperandRange
(45_keypad.md section 1, R96, R97; the spec's decision D15). -/
def Obligations.KeySkipsReadKeyVx : Prop :=
  ∀ (s : State) (x : Reg),
    (∀ h : (s.getV x).toNat < 16,
      (∃ t, exec (.skp x) s = .next t ∧
        t.pc = s.pc + (if s.key[(s.getV x).toNat] = true then 4#16 else 2#16) ∧ KeepsBut [] s t) ∧
      (∃ t, exec (.sknp x) s = .next t ∧
        t.pc = s.pc + (if s.key[(s.getV x).toNat] = true then 2#16 else 4#16) ∧ KeepsBut [] s t)) ∧
    ((s.getV x).toNat > 0x0F →
      exec (.skp x) s = .fault (.operandRange s.pc (encode (.skp x)) (s.getV x)) ∧
      exec (.sknp x) s = .fault (.operandRange s.pc (encode (.sknp x)) (s.getV x)))

/-- FX0A begins the wait for VX with an empty latch and advances PC (45_keypad.md section 2, R98; the spec's
decision D16). -/
def Obligations.WaitForKeyBegins : Prop :=
  ∀ (s : State) (x : Reg), ∃ t, exec (.ldVxK x) s = .next t ∧ t.wait = some x ∧ t.waitLatch = 0#16 ∧
    t.pc = s.pc + 2#16 ∧ KeepsBut [.wait] s t

/-- After FX0A no number of steps ends the wait or changes anything, and a press call for a key already down does not end
it either; a press of an up key k and one step put k in VX and end the wait, PC staying at the word after FX0A (45_keypad.md section 2; 60_exceptions.md R112; the
spec's decision D16). -/
def Obligations.KeyPressEndsWait : Prop :=
  ∀ (s t : State) (x k : Reg), exec (.ldVxK x) s = .next t →
    (∀ n : Nat, runOps (List.replicate n .step) t = t) ∧
    (s.keyDown k = true → step (setKey k true t) = .next (setKey k true t)) ∧
    (s.keyDown k = false → ∃ u, step (setKey k true t) = .next u ∧ (u.getV x).toNat = k.val ∧ u.wait = none ∧
      u.waitLatch = 0#16 ∧ u.pc = s.pc + 2#16 ∧ u.keyDown k = true ∧ RegsBut [x] s u)

/-- FX07 reads DT into VX, FX15 sets DT from VX and FX18 sets ST from VX; after FX18 `sound_active` is true exactly until
as many ticks as VX says have come. -/
def Obligations.TimerInstructionsMove : Prop :=
  ∀ (s : State) (x : Reg),
    (∃ t, exec (.ldVxDt x) s = .next t ∧ t.getV x = s.dt ∧ t.pc = s.pc + 2#16 ∧
      RegsBut [x] s t ∧ KeepsBut [.regs] s t) ∧
    (∃ t, exec (.ldDtVx x) s = .next t ∧ t.dt = s.getV x ∧ t.pc = s.pc + 2#16 ∧ KeepsBut [.dt] s t) ∧
    (∃ t, exec (.ldStVx x) s = .next t ∧ t.st = s.getV x ∧
      (∀ n : Nat, (runOps (List.replicate n .tick) t).soundActive = true ↔ n < (s.getV x).toNat) ∧
      t.pc = s.pc + 2#16 ∧ KeepsBut [.st] s t)

/-! ## Host operations -/

/-- Any number of ticks counts both timers down to 0 and no further, in a wait too, and changes nothing else. -/
def Obligations.TicksCountDownToZero : Prop :=
  ∀ (s : State) (n : Nat), ∃ t, runOps (List.replicate n .tick) s = t ∧
    t.dt.toNat = s.dt.toNat - n ∧ t.st.toNat = s.st.toNat - n ∧ t.pc = s.pc ∧ KeepsBut [.dt, .st] s t

/-- `set_key(k, p)` writes KEY(k), latches k exactly when it turns an up key down during a wait, and changes nothing else;
an index above 15 has no transition (60_exceptions.md section 5, R112; the spec's decisions D16, D29). -/
def Obligations.SetKeyLatchesPresses : Prop :=
  (∀ (s : State) (k : Fin 16) (p : Bool), ∃ t, setKeyCall k.val p s = some t ∧ t.keyDown k = p ∧
    (∀ j, j ≠ k → t.keyDown j = s.keyDown j) ∧
    (∀ j : Fin 16, t.waitLatch.getLsbD j.val =
      (s.waitLatch.getLsbD j.val || (j == k && p && !s.keyDown k && s.wait.isSome))) ∧
    t.wait = s.wait ∧ t.pc = s.pc ∧ KeepsBut [.key, .wait] s t) ∧
  (∀ (s : State) (index : Nat) (p : Bool), 15 < index → setKeyCall index p s = none)

/-- `load` copies the bytes to `origin` and on, and changes nothing else; a program that does not fit is refused
(70_reset_and_hazards.md section 2, R120; the spec's decision D23). -/
def Obligations.LoadCopiesProgram : Prop :=
  ∀ (s : State) (bytes : List Byte) (origin : Nat), Memory.wf s.mem = true →
    (origin + bytes.length ≤ 0x1000 → ∃ t, load bytes origin s = some t ∧
      (∀ k (h : k < bytes.length), Memory.read t.mem (origin + k) = bytes[k]) ∧
      BytesBut origin bytes.length s t ∧ t.pc = s.pc ∧ KeepsBut [.mem] s t) ∧
    (origin + bytes.length > 0x1000 → load bytes origin s = none ∧ HostOp.apply (.load bytes origin) s = s)
end

