-- ==== Sys2Proof/Laws/Decode.lean ====
section
/-! SUPPORT. The fields of an encoded word, and a word rebuilt from its fields. -/

namespace Sys2Proof

/-! ## Fields as numbers -/

theorem fieldTop_toNat (w : Word) : (fieldTop w).toNat = w.toNat / 4096 := by
  have := w.isLt
  simp only [fieldTop, BitVec.extractLsb'_toNat, Nat.shiftRight_eq_div_pow]
  omega

theorem fieldX_val (w : Word) : (fieldX w).val = w.toNat / 256 % 16 := by
  simp [fieldX, Nat.shiftRight_eq_div_pow]

theorem fieldY_val (w : Word) : (fieldY w).val = w.toNat / 16 % 16 := by
  simp [fieldY, Nat.shiftRight_eq_div_pow]

theorem fieldN_val (w : Word) : (fieldN w).val = w.toNat % 16 := by
  simp [fieldN]

theorem fieldNN_toNat (w : Word) : (fieldNN w).toNat = w.toNat % 256 := by
  simp [fieldNN]

theorem fieldNNN_toNat (w : Word) : (fieldNNN w).toNat = w.toNat % 4096 := by
  simp [fieldNNN]

/-! ## Encoded words as numbers -/

theorem wordNNN_toNat (top : BitVec 4) (nnn : Addr12) :
    (wordNNN top nnn).toNat = top.toNat * 4096 + nnn.toNat := by
  have := nnn.isLt
  simp only [wordNNN, BitVec.toNat_append]
  rw [Nat.shiftLeft_eq, Nat.mul_comm, ← Nat.two_pow_add_eq_or_of_lt (by omega)]

theorem wordXNN_toNat (top : BitVec 4) (x : Reg) (nn : Byte) :
    (wordXNN top x nn).toNat = top.toNat * 4096 + x.val * 256 + nn.toNat := by
  have := nn.isLt
  have := x.isLt
  simp only [wordXNN, BitVec.toNat_append, BitVec.toNat_ofFin]
  rw [Nat.shiftLeft_eq, Nat.shiftLeft_eq, Nat.mul_comm _ (2 ^ 4), Nat.mul_comm _ (2 ^ 8),
    ← Nat.two_pow_add_eq_or_of_lt (by omega), ← Nat.two_pow_add_eq_or_of_lt (by omega)]
  omega

theorem wordXYN_toNat (top : BitVec 4) (x y n : Fin 16) :
    (wordXYN top x y n).toNat = top.toNat * 4096 + x.val * 256 + y.val * 16 + n.val := by
  have := x.isLt
  have := y.isLt
  have := n.isLt
  simp only [wordXYN, BitVec.toNat_append, BitVec.toNat_ofFin]
  simp only [Nat.shiftLeft_eq, Nat.mul_comm _ (2 ^ 4)]
  rw [← Nat.two_pow_add_eq_or_of_lt (by omega), ← Nat.two_pow_add_eq_or_of_lt (by omega),
    ← Nat.two_pow_add_eq_or_of_lt (by omega)]
  omega

/-! ## The fields of an encoded word -/

@[simp] theorem fieldTop_wordNNN (top : BitVec 4) (nnn : Addr12) : fieldTop (wordNNN top nnn) = top := by
  have := nnn.isLt
  apply BitVec.eq_of_toNat_eq
  rw [fieldTop_toNat, wordNNN_toNat]
  omega

@[simp] theorem fieldNNN_wordNNN (top : BitVec 4) (nnn : Addr12) : fieldNNN (wordNNN top nnn) = nnn := by
  have := nnn.isLt
  apply BitVec.eq_of_toNat_eq
  rw [fieldNNN_toNat, wordNNN_toNat]
  omega

@[simp] theorem fieldTop_wordXNN (top : BitVec 4) (x : Reg) (nn : Byte) : fieldTop (wordXNN top x nn) = top := by
  have := nn.isLt
  have := x.isLt
  apply BitVec.eq_of_toNat_eq
  rw [fieldTop_toNat, wordXNN_toNat]
  omega

@[simp] theorem fieldX_wordXNN (top : BitVec 4) (x : Reg) (nn : Byte) : fieldX (wordXNN top x nn) = x := by
  have := nn.isLt
  have := x.isLt
  apply Fin.ext
  rw [fieldX_val, wordXNN_toNat]
  omega

@[simp] theorem fieldNN_wordXNN (top : BitVec 4) (x : Reg) (nn : Byte) : fieldNN (wordXNN top x nn) = nn := by
  have := nn.isLt
  apply BitVec.eq_of_toNat_eq
  rw [fieldNN_toNat, wordXNN_toNat]
  omega

@[simp] theorem fieldTop_wordXYN (top : BitVec 4) (x y n : Fin 16) : fieldTop (wordXYN top x y n) = top := by
  have := x.isLt
  have := y.isLt
  have := n.isLt
  apply BitVec.eq_of_toNat_eq
  rw [fieldTop_toNat, wordXYN_toNat]
  omega

@[simp] theorem fieldX_wordXYN (top : BitVec 4) (x y n : Fin 16) : fieldX (wordXYN top x y n) = x := by
  have := x.isLt
  have := y.isLt
  have := n.isLt
  apply Fin.ext
  rw [fieldX_val, wordXYN_toNat]
  omega

@[simp] theorem fieldY_wordXYN (top : BitVec 4) (x y n : Fin 16) : fieldY (wordXYN top x y n) = y := by
  have := y.isLt
  have := n.isLt
  apply Fin.ext
  rw [fieldY_val, wordXYN_toNat]
  omega

@[simp] theorem fieldN_wordXYN (top : BitVec 4) (x y n : Fin 16) : fieldN (wordXYN top x y n) = n := by
  have := n.isLt
  apply Fin.ext
  rw [fieldN_val, wordXYN_toNat]
  omega

/-! ## A word is its fields -/

theorem wordNNN_fields (w : Word) : wordNNN (fieldTop w) (fieldNNN w) = w := by
  have := w.isLt
  apply BitVec.eq_of_toNat_eq
  rw [wordNNN_toNat, fieldTop_toNat, fieldNNN_toNat]
  omega

theorem wordXNN_fields (w : Word) : wordXNN (fieldTop w) (fieldX w) (fieldNN w) = w := by
  have := w.isLt
  apply BitVec.eq_of_toNat_eq
  rw [wordXNN_toNat, fieldTop_toNat, fieldX_val, fieldNN_toNat]
  omega

theorem wordXYN_fields (w : Word) : wordXYN (fieldTop w) (fieldX w) (fieldY w) (fieldN w) = w := by
  have := w.isLt
  apply BitVec.eq_of_toNat_eq
  rw [wordXYN_toNat, fieldTop_toNat, fieldX_val, fieldY_val, fieldN_val]
  omega

/-- The two bytes of a word, put together again (R36). -/
@[simp] theorem wordOfBytes_hiByte_loByte (w : Word) : wordOfBytes (hiByte w) (loByte w) = w := by
  have := w.isLt
  apply BitVec.eq_of_toNat_eq
  simp only [wordOfBytes, hiByte, loByte, BitVec.toNat_append, BitVec.extractLsb'_toNat]
  rw [Nat.shiftLeft_eq, Nat.mul_comm, ← Nat.two_pow_add_eq_or_of_lt (by omega), Nat.shiftRight_eq_div_pow]
  omega

@[simp] theorem tableWord_toNat (w : Word) : tableWord 16 w.toNat = w := by
  have := w.isLt
  apply BitVec.eq_of_toNat_eq
  simp [tableWord]
  omega

end Sys2Proof
end

