-- ==== Sys2Proof/Laws/Display.lean ====
section
/-! SUPPORT. What the display operations do, pixel by pixel. -/

namespace Sys2Proof.Machine

@[simp] theorem Framebuffer.pixel_clear (x : Fin 64) (y : Fin 32) :
    Framebuffer.pixel Framebuffer.clear x y = false := by
  simp [Framebuffer.pixel, Framebuffer.clear]

/-- A pixel after one pixel is set. -/
@[simp] theorem Framebuffer.pixel_setPixel (f : Framebuffer) (x x' : Fin 64) (y y' : Fin 32) (b : Bool) :
    Framebuffer.pixel (Framebuffer.setPixel f x y b) x' y' =
      if x' = x ∧ y' = y then b else Framebuffer.pixel f x' y' := by
  simp only [Framebuffer.pixel, Framebuffer.setPixel, Vector.getElem_set]
  by_cases hy : y' = y
  · subst hy
    by_cases hx : x' = x
    · simp [hx]
    · simp [hx, Fin.val_ne_of_ne (Ne.symm hx)]
  · simp [hy, Fin.val_ne_of_ne (Ne.symm hy)]

/-- Two framebuffers with the same pixels are equal. -/
theorem Framebuffer.ext_pixel {f g : Framebuffer}
    (h : ∀ x y, Framebuffer.pixel f x y = Framebuffer.pixel g x y) : f = g := by
  apply Vector.ext
  intro y hy
  apply Vector.ext
  intro x hx
  exact h ⟨x, hx⟩ ⟨y, hy⟩

/-- A pixel after one 1 bit of a sprite at (x, y). -/
theorem togglePixel_pixel (d : Drawing) (x y : Nat) (x' : Fin 64) (y' : Fin 32) :
    Framebuffer.pixel (togglePixel d x y).1 x' y' =
      (Framebuffer.pixel d.1 x' y' ^^ decide (x'.val = x ∧ y'.val = y)) := by
  unfold togglePixel
  split
  · rename_i h
    simp only [Framebuffer.pixel_setPixel]
    by_cases hc : x'.val = x ∧ y'.val = y
    · obtain ⟨h1, h2⟩ := hc
      have e1 : x' = ⟨x, h.1⟩ := Fin.ext h1
      have e2 : y' = ⟨y, h.2⟩ := Fin.ext h2
      simp [e1, e2]
    · have : ¬ (x' = ⟨x, h.1⟩ ∧ y' = ⟨y, h.2⟩) := fun hh => hc ⟨congrArg Fin.val hh.1, congrArg Fin.val hh.2⟩
      simp [hc, this]
  · rename_i h
    have : ¬ (x'.val = x ∧ y'.val = y) := by
      rintro ⟨h1, h2⟩
      exact h ⟨h1 ▸ x'.isLt, h2 ▸ y'.isLt⟩
    simp [this]

/-- The collision mark after one 1 bit of a sprite at (x, y): a visible pixel that was on sets it. -/
theorem togglePixel_collision (d : Drawing) (x y : Nat) :
    (togglePixel d x y).2 = true ↔
      d.2 = true ∨ ∃ (x' : Fin 64) (y' : Fin 32), x'.val = x ∧ y'.val = y ∧ Framebuffer.pixel d.1 x' y' = true := by
  unfold togglePixel
  split
  · rename_i h
    simp only [Bool.or_eq_true]
    constructor
    · rintro (h1 | h1)
      · exact .inl h1
      · exact .inr ⟨⟨x, h.1⟩, ⟨y, h.2⟩, rfl, rfl, h1⟩
    · rintro (h1 | ⟨x', y', rfl, rfl, h1⟩)
      · exact .inl h1
      · exact .inr h1
  · rename_i h
    constructor
    · exact .inl
    · rintro (h1 | ⟨x', y', rfl, rfl, -⟩)
      · exact h1
      · exact absurd ⟨x'.isLt, y'.isLt⟩ h

/-! ## A set of bits drawn one after another -/

/-- A drawing `d'` is `d` with the pixels of `cover` toggled, none of them twice. -/
def Covers (cover : Fin 64 → Fin 32 → Prop) (d d' : Drawing) : Prop :=
  (∀ x y, cover x y → Framebuffer.pixel d'.1 x y = !Framebuffer.pixel d.1 x y) ∧
  (∀ x y, ¬ cover x y → Framebuffer.pixel d'.1 x y = Framebuffer.pixel d.1 x y) ∧
  (d'.2 = true ↔ d.2 = true ∨ ∃ x y, cover x y ∧ Framebuffer.pixel d.1 x y = true)

theorem Covers.refl (d : Drawing) : Covers (fun _ _ => False) d d := by
  refine ⟨fun _ _ h => h.elim, fun _ _ _ => rfl, ?_⟩
  simp

/-- Two drawings of disjoint sets of pixels, one after the other, draw the union. -/
theorem Covers.trans {c c' : Fin 64 → Fin 32 → Prop} {d d' d'' : Drawing} (h : Covers c d d') (h' : Covers c' d' d'')
    (hdis : ∀ x y, c x y → ¬ c' x y) : Covers (fun x y => c x y ∨ c' x y) d d'' := by
  refine ⟨?_, ?_, ?_⟩
  · rintro x y (hc | hc)
    · rw [h'.2.1 x y (hdis x y hc), h.1 x y hc]
    · rw [h'.1 x y hc, h.2.1 x y (fun h0 => hdis x y h0 hc)]
  · intro x y hc
    rw [h'.2.1 x y (fun h0 => hc (.inr h0)), h.2.1 x y (fun h0 => hc (.inl h0))]
  · rw [h'.2.2, h.2.2]
    constructor
    · rintro ((h1 | ⟨x, y, hc, hp⟩) | ⟨x, y, hc, hp⟩)
      · exact .inl h1
      · exact .inr ⟨x, y, .inl hc, hp⟩
      · refine .inr ⟨x, y, .inr hc, ?_⟩
        rwa [h.2.1 x y (fun h0 => hdis x y h0 hc)] at hp
    · rintro (h1 | ⟨x, y, hc | hc, hp⟩)
      · exact .inl (.inl h1)
      · exact .inl (.inr ⟨x, y, hc, hp⟩)
      · refine .inr ⟨x, y, hc, ?_⟩
        rwa [h.2.1 x y (fun h0 => hdis x y h0 hc)]

theorem Covers.congr {c c' : Fin 64 → Fin 32 → Prop} {d d' : Drawing} (h : Covers c d d')
    (hc : ∀ x y, c x y ↔ c' x y) : Covers c' d d' := by
  have : c = c' := by
    funext x y
    exact propext (hc x y)
  exact this ▸ h

theorem covers_togglePixel (d : Drawing) (x y : Nat) :
    Covers (fun x' y' => x'.val = x ∧ y'.val = y) d (togglePixel d x y) := by
  refine ⟨?_, ?_, ?_⟩
  · intro x' y' hc
    simp [togglePixel_pixel, hc]
  · intro x' y' hc
    simp [togglePixel_pixel, hc]
  · rw [togglePixel_collision]
    simp only [and_assoc]

/-- One sprite row toggles the visible pixels of its 1 bits (R64). -/
theorem covers_drawRow (d : Drawing) (row : Byte) (x0 y : Nat) :
    Covers (fun x' y' => y'.val = y ∧ x0 ≤ x'.val ∧ x'.val < x0 + 8 ∧ row.getLsbD (7 - (x'.val - x0)) = true)
      d (drawRow d row x0 y) := by
  unfold drawRow
  suffices h : ∀ n, Covers (fun x' y' => y'.val = y ∧ x0 ≤ x'.val ∧ x'.val < x0 + n ∧
      row.getLsbD (7 - (x'.val - x0)) = true) d
      ((List.range n).foldl (fun d c => if row.getLsbD (7 - c) then togglePixel d (x0 + c) y else d) d) from h 8
  intro n
  induction n with
  | zero => exact (Covers.refl d).congr fun x y => by simp; omega
  | succ n ih =>
    rw [List.range_succ, List.foldl_append]
    simp only [List.foldl_cons, List.foldl_nil]
    by_cases hb : row.getLsbD (7 - n) = true
    · rw [if_pos hb]
      refine (ih.trans (covers_togglePixel _ (x0 + n) y) ?_).congr ?_
      · rintro x' y' ⟨_, _, h3, _⟩ ⟨h4, _⟩
        omega
      · intro x' y'
        constructor
        · rintro (⟨h1, h2, h3, h4⟩ | ⟨h1, h2⟩)
          · exact ⟨h1, h2, by omega, h4⟩
          · refine ⟨h2, by omega, by omega, ?_⟩
            have : x'.val - x0 = n := by omega
            rwa [this]
        · rintro ⟨h1, h2, h3, h4⟩
          by_cases hx : x'.val = x0 + n
          · exact .inr ⟨hx, h1⟩
          · exact .inl ⟨h1, h2, by omega, h4⟩
    · rw [if_neg hb]
      refine ih.congr ?_
      intro x' y'
      constructor
      · rintro ⟨h1, h2, h3, h4⟩
        exact ⟨h1, h2, by omega, h4⟩
      · rintro ⟨h1, h2, h3, h4⟩
        refine ⟨h1, h2, ?_, h4⟩
        rcases Nat.lt_or_ge x'.val (x0 + n) with h5 | h5
        · exact h5
        · have : x'.val - x0 = n := by omega
          rw [this] at h4
          exact absurd h4 hb

/-- The sprite rows toggle the visible pixels of their 1 bits (R65). -/
theorem covers_drawRows (d : Drawing) (rows : List Byte) (x0 y0 : Nat) :
    Covers (fun x' y' => x0 ≤ x'.val ∧ x'.val < x0 + 8 ∧ y0 ≤ y'.val ∧ y'.val < y0 + rows.length ∧
      (rows.getD (y'.val - y0) 0x00#8).getLsbD (7 - (x'.val - x0)) = true) d (drawRows d rows x0 y0) := by
  induction rows generalizing d y0 with
  | nil => exact (Covers.refl d).congr fun x y => by simp
  | cons row rows ih =>
    refine ((covers_drawRow d row x0 y0).trans (ih (drawRow d row x0 y0) (y0 + 1)) ?_).congr ?_
    · rintro x' y' ⟨h1, _⟩ ⟨_, _, h2, _⟩
      omega
    · intro x' y'
      rw [List.length_cons]
      constructor
      · rintro (⟨h1, h2, h3, h4⟩ | ⟨h1, h2, h3, h4, h5⟩)
        · refine ⟨h2, h3, by omega, by omega, ?_⟩
          have : y'.val - y0 = 0 := by omega
          simpa [this] using h4
        · refine ⟨h1, h2, by omega, by omega, ?_⟩
          have : y'.val - y0 = (y'.val - (y0 + 1)) + 1 := by omega
          rwa [this, List.getD_cons_succ]
      · rintro ⟨h1, h2, h3, h4, h5⟩
        by_cases hy : y'.val = y0
        · refine .inl ⟨hy, h1, h2, ?_⟩
          have : y'.val - y0 = 0 := by omega
          simpa [this] using h5
        · refine .inr ⟨h1, h2, by omega, by omega, ?_⟩
          have : y'.val - y0 = (y'.val - (y0 + 1)) + 1 := by omega
          rwa [this, List.getD_cons_succ] at h5

end Sys2Proof.Machine
end

