-- ==== Sys2Proof/Laws/Memory.lean ====
section
/-! SUPPORT. What the memory operations do: read after write, and the canonical form kept. -/

namespace Sys2Proof.Machine

/-- Reading below the first address a canonical list may hold gives the unlisted value. -/
theorem Memory.read_of_lt {m : Memory} {lo a : Nat} (hm : Memory.wfFrom lo m = true) (h : a < lo) :
    Memory.read m a = Memory.resetByte a := by
  induction m generalizing lo with
  | nil => rfl
  | cons c rest ih =>
    obtain ⟨b, x⟩ := c
    simp only [Memory.wfFrom, Bool.and_eq_true, decide_eq_true_eq] at hm
    have hne : a ≠ b := by omega
    simpa [Memory.read, hne] using ih hm.2 (by omega)

theorem Memory.wfFrom_mono {m : Memory} {lo lo' : Nat} (h : lo' ≤ lo) (hm : Memory.wfFrom lo m = true) :
    Memory.wfFrom lo' m = true := by
  cases m with
  | nil => rfl
  | cons c rest =>
    simp only [Memory.wfFrom, Bool.and_eq_true, decide_eq_true_eq] at hm ⊢
    exact ⟨⟨⟨by omega, hm.1.1.2⟩, hm.1.2⟩, hm.2⟩

/-- A listed cell in front of a list that starts above it reads as itself. -/
theorem Memory.read_consCell {rest : Memory} {a : Nat} (x : Byte) (hm : Memory.wfFrom (a + 1) rest = true) (b : Nat) :
    Memory.read (Memory.cons a x rest) b = if b = a then x else Memory.read rest b := by
  unfold Memory.cons
  by_cases hx : x = Memory.resetByte a
  · by_cases hb : b = a
    · subst hb
      simp [hx, Memory.read_of_lt hm (Nat.lt_succ_self b)]
    · simp [hx, hb]
  · by_cases hb : b = a <;> simp [hx, hb, Memory.read]

theorem Memory.wfFrom_consCell {rest : Memory} {lo a : Nat} (x : Byte) (hlo : lo ≤ a) (ha : a ≤ 0xFFF)
    (hm : Memory.wfFrom (a + 1) rest = true) : Memory.wfFrom lo (Memory.cons a x rest) = true := by
  unfold Memory.cons
  by_cases hx : x = Memory.resetByte a
  · simpa [hx] using Memory.wfFrom_mono (by omega) hm
  · simp [hx, Memory.wfFrom, hlo, ha, hm]

/-- A read after a write, from any lower bound. -/
theorem Memory.read_write_from {m : Memory} {lo : Nat} (hm : Memory.wfFrom lo m = true) (a b : Nat) (x : Byte) :
    Memory.read (Memory.write m a x) b = if b = a then x else Memory.read m b := by
  induction m generalizing lo with
  | nil => simpa [Memory.write] using Memory.read_consCell (rest := []) x rfl b
  | cons c rest ih =>
    obtain ⟨d, y⟩ := c
    have hm' := hm
    simp only [Memory.wfFrom, Bool.and_eq_true, decide_eq_true_eq] at hm'
    by_cases h1 : a < d
    · have hw : Memory.wfFrom (a + 1) ((d, y) :: rest) = true := by
        simp only [Memory.wfFrom, Bool.and_eq_true, decide_eq_true_eq]
        exact ⟨⟨⟨by omega, hm'.1.1.2⟩, hm'.1.2⟩, hm'.2⟩
      simpa [Memory.write, h1] using Memory.read_consCell x hw b
    · by_cases h2 : a = d
      · subst h2
        simp only [Memory.write, Nat.lt_irrefl, if_false, if_true, Memory.read_consCell x hm'.2 b, Memory.read]
        by_cases hb : b = a <;> simp [hb]
      · have := ih hm'.2
        by_cases hb : b = d
        · have hne : b ≠ a := by omega
          have hne' : ¬ d = a := by omega
          simp [Memory.write, h1, h2, Memory.read, hb, hne']
        · simp [Memory.write, h1, h2, Memory.read, hb, this]

theorem Memory.wfFrom_write {m : Memory} {lo a : Nat} (hm : Memory.wfFrom lo m = true) (hlo : lo ≤ a)
    (ha : a ≤ 0xFFF) (x : Byte) : Memory.wfFrom lo (Memory.write m a x) = true := by
  induction m generalizing lo with
  | nil => exact Memory.wfFrom_consCell x hlo ha rfl
  | cons c rest ih =>
    obtain ⟨d, y⟩ := c
    have hm' := hm
    simp only [Memory.wfFrom, Bool.and_eq_true, decide_eq_true_eq] at hm'
    by_cases h1 : a < d
    · have hw : Memory.wfFrom (a + 1) ((d, y) :: rest) = true := by
        simp only [Memory.wfFrom, Bool.and_eq_true, decide_eq_true_eq]
        exact ⟨⟨⟨by omega, hm'.1.1.2⟩, hm'.1.2⟩, hm'.2⟩
      simpa [Memory.write, h1] using Memory.wfFrom_consCell x hlo ha hw
    · by_cases h2 : a = d
      · subst h2
        simpa [Memory.write] using Memory.wfFrom_consCell x hlo ha hm'.2
      · have := ih hm'.2 (by omega)
        simp only [Memory.write, h1, h2, if_false, Memory.wfFrom, Bool.and_eq_true, decide_eq_true_eq]
        exact ⟨hm'.1, this⟩

/-- Every write of bytes at addresses that exist keeps the canonical form. -/
theorem Memory.wf_writeBytes {m : Memory} {a : Nat} {xs : List Byte} (hm : Memory.wf m = true)
    (h : xs = [] ∨ a + xs.length ≤ 4096) : Memory.wf (Memory.writeBytes m a xs) = true := by
  induction xs generalizing m a with
  | nil => exact hm
  | cons x xs ih =>
    have h' : a + (xs.length + 1) ≤ 4096 := by simpa using h
    have ha : a ≤ 0xFFF := by omega
    refine ih (Memory.wfFrom_write hm (Nat.zero_le a) ha x) (Or.inr ?_)
    omega

/-- What every address reads as after a write of bytes. -/
theorem Memory.read_writeBytes {m : Memory} {a : Nat} {xs : List Byte} (hm : Memory.wf m = true)
    (h : xs = [] ∨ a + xs.length ≤ 4096) (b : Nat) :
    Memory.read (Memory.writeBytes m a xs) b =
      if a ≤ b ∧ b < a + xs.length then xs.getD (b - a) 0x00#8 else Memory.read m b := by
  induction xs generalizing m a with
  | nil =>
    have : ¬ (a ≤ b ∧ b < a) := by omega
    simp [Memory.writeBytes, this]
  | cons x xs ih =>
    have h' : a + (xs.length + 1) ≤ 4096 := by simpa using h
    have ha : a ≤ 0xFFF := by omega
    have hfit : xs = [] ∨ a + 1 + xs.length ≤ 4096 := Or.inr (by omega)
    rw [Memory.writeBytes, ih (Memory.wfFrom_write hm (Nat.zero_le a) ha x) hfit,
      Memory.read_write_from hm]
    by_cases hb : b = a
    · subst hb
      simp
    · by_cases hin : a + 1 ≤ b ∧ b < a + 1 + xs.length
      · have h2 : a ≤ b ∧ b < a + (x :: xs).length := by simp only [List.length_cons]; omega
        have h3 : b - a = (b - (a + 1)) + 1 := by omega
        rw [if_pos hin, if_pos h2, h3, List.getD_cons_succ]
      · have h2 : ¬ (a ≤ b ∧ b < a + (x :: xs).length) := by simp only [List.length_cons]; omega
        rw [if_neg hin, if_neg h2, if_neg hb]

@[simp] theorem Memory.length_readBytes (m : Memory) (a n : Nat) : (Memory.readBytes m a n).length = n := by
  simp [Memory.readBytes]

theorem Memory.getD_readBytes (m : Memory) (a : Nat) {n k : Nat} (h : k < n) (d : Byte) :
    (Memory.readBytes m a n).getD k d = Memory.read m (a + k) := by
  simp [Memory.readBytes, List.getD, h]

/-- No address is bad exactly when the last one exists, or there is none. -/
theorem firstBadAddr_eq_none {base n : Nat} :
    firstBadAddr base n = none ↔ n = 0 ∨ base + (n - 1) ≤ 0xFFF := by
  simp only [firstBadAddr, Config.maxAddr, Option.map_eq_none_iff, List.find?_eq_none, List.mem_range, decide_eq_true_eq]
  constructor
  · intro h
    rcases Nat.eq_zero_or_pos n with h0 | h0
    · exact .inl h0
    · exact .inr (by have := h (n - 1) (by omega); omega)
  · rintro (rfl | h) k hk
    · omega
    · omega

/-- The bad address reported is the lowest one. -/
theorem firstBadAddr_eq_some {base n a : Nat} :
    firstBadAddr base n = some a ↔
      0xFFF < a ∧ base ≤ a ∧ a < base + n ∧ ∀ b, base ≤ b → b < a → b ≤ 0xFFF := by
  simp only [firstBadAddr, Config.maxAddr, Option.map_eq_some_iff, List.find?_range_eq_some, decide_eq_true_eq,
    Bool.not_eq_true', decide_eq_false_iff_not]
  constructor
  · rintro ⟨k, ⟨h1, h2, h3⟩, rfl⟩
    refine ⟨h1, by omega, by have := List.mem_range.1 h2; omega, fun b hb hlt => ?_⟩
    have := h3 (b - base) (by omega)
    omega
  · rintro ⟨h1, h2, h3, h4⟩
    refine ⟨a - base, ⟨by omega, by rw [List.mem_range]; omega, fun j hj => ?_⟩, by omega⟩
    have := h4 (base + j) (by omega) (by omega)
    omega

end Sys2Proof.Machine
end

