-- ==== Sys2Proof/Laws/State.lean ====
section
/-! SUPPORT. What each field of State is after each update, and what a register reads as after a write. -/

namespace Sys2Proof.Machine

variable (s : State)

/-! ### setV -/

@[simp] theorem State.setV_v (x : Reg) (b : Byte) : (s.setV x b).v = s.v.set x.val b := rfl
@[simp] theorem State.setV_i (x : Reg) (b : Byte) : (s.setV x b).i = s.i := rfl
@[simp] theorem State.setV_pc (x : Reg) (b : Byte) : (s.setV x b).pc = s.pc := rfl
@[simp] theorem State.setV_sp (x : Reg) (b : Byte) : (s.setV x b).sp = s.sp := rfl
@[simp] theorem State.setV_stack (x : Reg) (b : Byte) : (s.setV x b).stack = s.stack := rfl
@[simp] theorem State.setV_dt (x : Reg) (b : Byte) : (s.setV x b).dt = s.dt := rfl
@[simp] theorem State.setV_st (x : Reg) (b : Byte) : (s.setV x b).st = s.st := rfl
@[simp] theorem State.setV_mem (x : Reg) (b : Byte) : (s.setV x b).mem = s.mem := rfl
@[simp] theorem State.setV_fb (x : Reg) (b : Byte) : (s.setV x b).fb = s.fb := rfl
@[simp] theorem State.setV_key (x : Reg) (b : Byte) : (s.setV x b).key = s.key := rfl
@[simp] theorem State.setV_wait (x : Reg) (b : Byte) : (s.setV x b).wait = s.wait := rfl
@[simp] theorem State.setV_waitLatch (x : Reg) (b : Byte) : (s.setV x b).waitLatch = s.waitLatch := rfl
@[simp] theorem State.setV_draws (x : Reg) (b : Byte) : (s.setV x b).draws = s.draws := rfl

/-! ### setI -/

@[simp] theorem State.setI_v (w : Word) : (s.setI w).v = s.v := rfl
@[simp] theorem State.setI_i (w : Word) : (s.setI w).i = w := rfl
@[simp] theorem State.setI_pc (w : Word) : (s.setI w).pc = s.pc := rfl
@[simp] theorem State.setI_sp (w : Word) : (s.setI w).sp = s.sp := rfl
@[simp] theorem State.setI_stack (w : Word) : (s.setI w).stack = s.stack := rfl
@[simp] theorem State.setI_dt (w : Word) : (s.setI w).dt = s.dt := rfl
@[simp] theorem State.setI_st (w : Word) : (s.setI w).st = s.st := rfl
@[simp] theorem State.setI_mem (w : Word) : (s.setI w).mem = s.mem := rfl
@[simp] theorem State.setI_fb (w : Word) : (s.setI w).fb = s.fb := rfl
@[simp] theorem State.setI_key (w : Word) : (s.setI w).key = s.key := rfl
@[simp] theorem State.setI_wait (w : Word) : (s.setI w).wait = s.wait := rfl
@[simp] theorem State.setI_waitLatch (w : Word) : (s.setI w).waitLatch = s.waitLatch := rfl
@[simp] theorem State.setI_draws (w : Word) : (s.setI w).draws = s.draws := rfl

/-! ### setPc -/

@[simp] theorem State.setPc_v (w : Word) : (s.setPc w).v = s.v := rfl
@[simp] theorem State.setPc_i (w : Word) : (s.setPc w).i = s.i := rfl
@[simp] theorem State.setPc_pc (w : Word) : (s.setPc w).pc = w := rfl
@[simp] theorem State.setPc_sp (w : Word) : (s.setPc w).sp = s.sp := rfl
@[simp] theorem State.setPc_stack (w : Word) : (s.setPc w).stack = s.stack := rfl
@[simp] theorem State.setPc_dt (w : Word) : (s.setPc w).dt = s.dt := rfl
@[simp] theorem State.setPc_st (w : Word) : (s.setPc w).st = s.st := rfl
@[simp] theorem State.setPc_mem (w : Word) : (s.setPc w).mem = s.mem := rfl
@[simp] theorem State.setPc_fb (w : Word) : (s.setPc w).fb = s.fb := rfl
@[simp] theorem State.setPc_key (w : Word) : (s.setPc w).key = s.key := rfl
@[simp] theorem State.setPc_wait (w : Word) : (s.setPc w).wait = s.wait := rfl
@[simp] theorem State.setPc_waitLatch (w : Word) : (s.setPc w).waitLatch = s.waitLatch := rfl
@[simp] theorem State.setPc_draws (w : Word) : (s.setPc w).draws = s.draws := rfl

/-! ### setDt -/

@[simp] theorem State.setDt_v (b : Byte) : (s.setDt b).v = s.v := rfl
@[simp] theorem State.setDt_i (b : Byte) : (s.setDt b).i = s.i := rfl
@[simp] theorem State.setDt_pc (b : Byte) : (s.setDt b).pc = s.pc := rfl
@[simp] theorem State.setDt_sp (b : Byte) : (s.setDt b).sp = s.sp := rfl
@[simp] theorem State.setDt_stack (b : Byte) : (s.setDt b).stack = s.stack := rfl
@[simp] theorem State.setDt_dt (b : Byte) : (s.setDt b).dt = b := rfl
@[simp] theorem State.setDt_st (b : Byte) : (s.setDt b).st = s.st := rfl
@[simp] theorem State.setDt_mem (b : Byte) : (s.setDt b).mem = s.mem := rfl
@[simp] theorem State.setDt_fb (b : Byte) : (s.setDt b).fb = s.fb := rfl
@[simp] theorem State.setDt_key (b : Byte) : (s.setDt b).key = s.key := rfl
@[simp] theorem State.setDt_wait (b : Byte) : (s.setDt b).wait = s.wait := rfl
@[simp] theorem State.setDt_waitLatch (b : Byte) : (s.setDt b).waitLatch = s.waitLatch := rfl
@[simp] theorem State.setDt_draws (b : Byte) : (s.setDt b).draws = s.draws := rfl

/-! ### setSt -/

@[simp] theorem State.setSt_v (b : Byte) : (s.setSt b).v = s.v := rfl
@[simp] theorem State.setSt_i (b : Byte) : (s.setSt b).i = s.i := rfl
@[simp] theorem State.setSt_pc (b : Byte) : (s.setSt b).pc = s.pc := rfl
@[simp] theorem State.setSt_sp (b : Byte) : (s.setSt b).sp = s.sp := rfl
@[simp] theorem State.setSt_stack (b : Byte) : (s.setSt b).stack = s.stack := rfl
@[simp] theorem State.setSt_dt (b : Byte) : (s.setSt b).dt = s.dt := rfl
@[simp] theorem State.setSt_st (b : Byte) : (s.setSt b).st = b := rfl
@[simp] theorem State.setSt_mem (b : Byte) : (s.setSt b).mem = s.mem := rfl
@[simp] theorem State.setSt_fb (b : Byte) : (s.setSt b).fb = s.fb := rfl
@[simp] theorem State.setSt_key (b : Byte) : (s.setSt b).key = s.key := rfl
@[simp] theorem State.setSt_wait (b : Byte) : (s.setSt b).wait = s.wait := rfl
@[simp] theorem State.setSt_waitLatch (b : Byte) : (s.setSt b).waitLatch = s.waitLatch := rfl
@[simp] theorem State.setSt_draws (b : Byte) : (s.setSt b).draws = s.draws := rfl

/-! ### setMem -/

@[simp] theorem State.setMem_v (m : Memory) : (s.setMem m).v = s.v := rfl
@[simp] theorem State.setMem_i (m : Memory) : (s.setMem m).i = s.i := rfl
@[simp] theorem State.setMem_pc (m : Memory) : (s.setMem m).pc = s.pc := rfl
@[simp] theorem State.setMem_sp (m : Memory) : (s.setMem m).sp = s.sp := rfl
@[simp] theorem State.setMem_stack (m : Memory) : (s.setMem m).stack = s.stack := rfl
@[simp] theorem State.setMem_dt (m : Memory) : (s.setMem m).dt = s.dt := rfl
@[simp] theorem State.setMem_st (m : Memory) : (s.setMem m).st = s.st := rfl
@[simp] theorem State.setMem_mem (m : Memory) : (s.setMem m).mem = m := rfl
@[simp] theorem State.setMem_fb (m : Memory) : (s.setMem m).fb = s.fb := rfl
@[simp] theorem State.setMem_key (m : Memory) : (s.setMem m).key = s.key := rfl
@[simp] theorem State.setMem_wait (m : Memory) : (s.setMem m).wait = s.wait := rfl
@[simp] theorem State.setMem_waitLatch (m : Memory) : (s.setMem m).waitLatch = s.waitLatch := rfl
@[simp] theorem State.setMem_draws (m : Memory) : (s.setMem m).draws = s.draws := rfl

/-! ### setFb -/

@[simp] theorem State.setFb_v (f : Framebuffer) : (s.setFb f).v = s.v := rfl
@[simp] theorem State.setFb_i (f : Framebuffer) : (s.setFb f).i = s.i := rfl
@[simp] theorem State.setFb_pc (f : Framebuffer) : (s.setFb f).pc = s.pc := rfl
@[simp] theorem State.setFb_sp (f : Framebuffer) : (s.setFb f).sp = s.sp := rfl
@[simp] theorem State.setFb_stack (f : Framebuffer) : (s.setFb f).stack = s.stack := rfl
@[simp] theorem State.setFb_dt (f : Framebuffer) : (s.setFb f).dt = s.dt := rfl
@[simp] theorem State.setFb_st (f : Framebuffer) : (s.setFb f).st = s.st := rfl
@[simp] theorem State.setFb_mem (f : Framebuffer) : (s.setFb f).mem = s.mem := rfl
@[simp] theorem State.setFb_fb (f : Framebuffer) : (s.setFb f).fb = f := rfl
@[simp] theorem State.setFb_key (f : Framebuffer) : (s.setFb f).key = s.key := rfl
@[simp] theorem State.setFb_wait (f : Framebuffer) : (s.setFb f).wait = s.wait := rfl
@[simp] theorem State.setFb_waitLatch (f : Framebuffer) : (s.setFb f).waitLatch = s.waitLatch := rfl
@[simp] theorem State.setFb_draws (f : Framebuffer) : (s.setFb f).draws = s.draws := rfl

/-! ### setKeyFlag -/

@[simp] theorem State.setKeyFlag_v (k : Fin 16) (d : Bool) : (s.setKeyFlag k d).v = s.v := rfl
@[simp] theorem State.setKeyFlag_i (k : Fin 16) (d : Bool) : (s.setKeyFlag k d).i = s.i := rfl
@[simp] theorem State.setKeyFlag_pc (k : Fin 16) (d : Bool) : (s.setKeyFlag k d).pc = s.pc := rfl
@[simp] theorem State.setKeyFlag_sp (k : Fin 16) (d : Bool) : (s.setKeyFlag k d).sp = s.sp := rfl
@[simp] theorem State.setKeyFlag_stack (k : Fin 16) (d : Bool) : (s.setKeyFlag k d).stack = s.stack := rfl
@[simp] theorem State.setKeyFlag_dt (k : Fin 16) (d : Bool) : (s.setKeyFlag k d).dt = s.dt := rfl
@[simp] theorem State.setKeyFlag_st (k : Fin 16) (d : Bool) : (s.setKeyFlag k d).st = s.st := rfl
@[simp] theorem State.setKeyFlag_mem (k : Fin 16) (d : Bool) : (s.setKeyFlag k d).mem = s.mem := rfl
@[simp] theorem State.setKeyFlag_fb (k : Fin 16) (d : Bool) : (s.setKeyFlag k d).fb = s.fb := rfl
@[simp] theorem State.setKeyFlag_key (k : Fin 16) (d : Bool) : (s.setKeyFlag k d).key = s.key.set k.val d := rfl
@[simp] theorem State.setKeyFlag_wait (k : Fin 16) (d : Bool) : (s.setKeyFlag k d).wait = s.wait := rfl
@[simp] theorem State.setKeyFlag_waitLatch (k : Fin 16) (d : Bool) : (s.setKeyFlag k d).waitLatch = s.waitLatch := rfl
@[simp] theorem State.setKeyFlag_draws (k : Fin 16) (d : Bool) : (s.setKeyFlag k d).draws = s.draws := rfl

/-! ### setWait -/

@[simp] theorem State.setWait_v (w : Option Reg) (l : BitVec 16) : (s.setWait w l).v = s.v := rfl
@[simp] theorem State.setWait_i (w : Option Reg) (l : BitVec 16) : (s.setWait w l).i = s.i := rfl
@[simp] theorem State.setWait_pc (w : Option Reg) (l : BitVec 16) : (s.setWait w l).pc = s.pc := rfl
@[simp] theorem State.setWait_sp (w : Option Reg) (l : BitVec 16) : (s.setWait w l).sp = s.sp := rfl
@[simp] theorem State.setWait_stack (w : Option Reg) (l : BitVec 16) : (s.setWait w l).stack = s.stack := rfl
@[simp] theorem State.setWait_dt (w : Option Reg) (l : BitVec 16) : (s.setWait w l).dt = s.dt := rfl
@[simp] theorem State.setWait_st (w : Option Reg) (l : BitVec 16) : (s.setWait w l).st = s.st := rfl
@[simp] theorem State.setWait_mem (w : Option Reg) (l : BitVec 16) : (s.setWait w l).mem = s.mem := rfl
@[simp] theorem State.setWait_fb (w : Option Reg) (l : BitVec 16) : (s.setWait w l).fb = s.fb := rfl
@[simp] theorem State.setWait_key (w : Option Reg) (l : BitVec 16) : (s.setWait w l).key = s.key := rfl
@[simp] theorem State.setWait_wait (w : Option Reg) (l : BitVec 16) : (s.setWait w l).wait = w := rfl
@[simp] theorem State.setWait_waitLatch (w : Option Reg) (l : BitVec 16) : (s.setWait w l).waitLatch = l := rfl
@[simp] theorem State.setWait_draws (w : Option Reg) (l : BitVec 16) : (s.setWait w l).draws = s.draws := rfl

/-! ### countDraw -/

@[simp] theorem State.countDraw_v : (s.countDraw).v = s.v := rfl
@[simp] theorem State.countDraw_i : (s.countDraw).i = s.i := rfl
@[simp] theorem State.countDraw_pc : (s.countDraw).pc = s.pc := rfl
@[simp] theorem State.countDraw_sp : (s.countDraw).sp = s.sp := rfl
@[simp] theorem State.countDraw_stack : (s.countDraw).stack = s.stack := rfl
@[simp] theorem State.countDraw_dt : (s.countDraw).dt = s.dt := rfl
@[simp] theorem State.countDraw_st : (s.countDraw).st = s.st := rfl
@[simp] theorem State.countDraw_mem : (s.countDraw).mem = s.mem := rfl
@[simp] theorem State.countDraw_fb : (s.countDraw).fb = s.fb := rfl
@[simp] theorem State.countDraw_key : (s.countDraw).key = s.key := rfl
@[simp] theorem State.countDraw_wait : (s.countDraw).wait = s.wait := rfl
@[simp] theorem State.countDraw_waitLatch : (s.countDraw).waitLatch = s.waitLatch := rfl
@[simp] theorem State.countDraw_draws : (s.countDraw).draws = s.draws + 1 := rfl

/-! ### advance -/

@[simp] theorem State.advance_v : (s.advance).v = s.v := rfl
@[simp] theorem State.advance_i : (s.advance).i = s.i := rfl
@[simp] theorem State.advance_pc : (s.advance).pc = s.pc + 2#16 := rfl
@[simp] theorem State.advance_sp : (s.advance).sp = s.sp := rfl
@[simp] theorem State.advance_stack : (s.advance).stack = s.stack := rfl
@[simp] theorem State.advance_dt : (s.advance).dt = s.dt := rfl
@[simp] theorem State.advance_st : (s.advance).st = s.st := rfl
@[simp] theorem State.advance_mem : (s.advance).mem = s.mem := rfl
@[simp] theorem State.advance_fb : (s.advance).fb = s.fb := rfl
@[simp] theorem State.advance_key : (s.advance).key = s.key := rfl
@[simp] theorem State.advance_wait : (s.advance).wait = s.wait := rfl
@[simp] theorem State.advance_waitLatch : (s.advance).waitLatch = s.waitLatch := rfl
@[simp] theorem State.advance_draws : (s.advance).draws = s.draws := rfl

/-! ### skipIf -/

@[simp] theorem State.skipIf_v (c : Bool) : (s.skipIf c).v = s.v := rfl
@[simp] theorem State.skipIf_i (c : Bool) : (s.skipIf c).i = s.i := rfl
@[simp] theorem State.skipIf_pc (c : Bool) : (s.skipIf c).pc = if c then s.pc + 4#16 else s.pc + 2#16 := rfl
@[simp] theorem State.skipIf_sp (c : Bool) : (s.skipIf c).sp = s.sp := rfl
@[simp] theorem State.skipIf_stack (c : Bool) : (s.skipIf c).stack = s.stack := rfl
@[simp] theorem State.skipIf_dt (c : Bool) : (s.skipIf c).dt = s.dt := rfl
@[simp] theorem State.skipIf_st (c : Bool) : (s.skipIf c).st = s.st := rfl
@[simp] theorem State.skipIf_mem (c : Bool) : (s.skipIf c).mem = s.mem := rfl
@[simp] theorem State.skipIf_fb (c : Bool) : (s.skipIf c).fb = s.fb := rfl
@[simp] theorem State.skipIf_key (c : Bool) : (s.skipIf c).key = s.key := rfl
@[simp] theorem State.skipIf_wait (c : Bool) : (s.skipIf c).wait = s.wait := rfl
@[simp] theorem State.skipIf_waitLatch (c : Bool) : (s.skipIf c).waitLatch = s.waitLatch := rfl
@[simp] theorem State.skipIf_draws (c : Bool) : (s.skipIf c).draws = s.draws := rfl

/-! ### setResultFlag -/

@[simp] theorem State.setResultFlag_v (x : Reg) (r f : Byte) : (s.setResultFlag x r f).v = (s.v.set x.val r).set regVF.val f := rfl
@[simp] theorem State.setResultFlag_i (x : Reg) (r f : Byte) : (s.setResultFlag x r f).i = s.i := rfl
@[simp] theorem State.setResultFlag_pc (x : Reg) (r f : Byte) : (s.setResultFlag x r f).pc = s.pc := rfl
@[simp] theorem State.setResultFlag_sp (x : Reg) (r f : Byte) : (s.setResultFlag x r f).sp = s.sp := rfl
@[simp] theorem State.setResultFlag_stack (x : Reg) (r f : Byte) : (s.setResultFlag x r f).stack = s.stack := rfl
@[simp] theorem State.setResultFlag_dt (x : Reg) (r f : Byte) : (s.setResultFlag x r f).dt = s.dt := rfl
@[simp] theorem State.setResultFlag_st (x : Reg) (r f : Byte) : (s.setResultFlag x r f).st = s.st := rfl
@[simp] theorem State.setResultFlag_mem (x : Reg) (r f : Byte) : (s.setResultFlag x r f).mem = s.mem := rfl
@[simp] theorem State.setResultFlag_fb (x : Reg) (r f : Byte) : (s.setResultFlag x r f).fb = s.fb := rfl
@[simp] theorem State.setResultFlag_key (x : Reg) (r f : Byte) : (s.setResultFlag x r f).key = s.key := rfl
@[simp] theorem State.setResultFlag_wait (x : Reg) (r f : Byte) : (s.setResultFlag x r f).wait = s.wait := rfl
@[simp] theorem State.setResultFlag_waitLatch (x : Reg) (r f : Byte) : (s.setResultFlag x r f).waitLatch = s.waitLatch := rfl
@[simp] theorem State.setResultFlag_draws (x : Reg) (r f : Byte) : (s.setResultFlag x r f).draws = s.draws := rfl

/-! ### The reading of a register after an update -/

@[simp] theorem State.getV_setV (x y : Reg) (b : Byte) : (s.setV x b).getV y = if y = x then b else s.getV y := by
  simp only [State.getV, State.setV_v, Vector.getElem_set]
  by_cases h : y = x
  · simp [h]
  · simp [h, Fin.val_ne_of_ne (Ne.symm h)]

@[simp] theorem State.getV_setResultFlag (x y : Reg) (r f : Byte) :
    (s.setResultFlag x r f).getV y = if y = regVF then f else if y = x then r else s.getV y := by
  simp [State.setResultFlag]

@[simp] theorem State.getV_setI (w : Word) (y : Reg) : (s.setI w).getV y = s.getV y := rfl
@[simp] theorem State.getV_setPc (w : Word) (y : Reg) : (s.setPc w).getV y = s.getV y := rfl
@[simp] theorem State.getV_setDt (b : Byte) (y : Reg) : (s.setDt b).getV y = s.getV y := rfl
@[simp] theorem State.getV_setSt (b : Byte) (y : Reg) : (s.setSt b).getV y = s.getV y := rfl
@[simp] theorem State.getV_setMem (m : Memory) (y : Reg) : (s.setMem m).getV y = s.getV y := rfl
@[simp] theorem State.getV_setFb (f : Framebuffer) (y : Reg) : (s.setFb f).getV y = s.getV y := rfl
@[simp] theorem State.getV_setKeyFlag (k : Fin 16) (d : Bool) (y : Reg) : (s.setKeyFlag k d).getV y = s.getV y := rfl
@[simp] theorem State.getV_setWait (w : Option Reg) (l : BitVec 16) (y : Reg) : (s.setWait w l).getV y = s.getV y := rfl
@[simp] theorem State.getV_countDraw (y : Reg) : (s.countDraw).getV y = s.getV y := rfl
@[simp] theorem State.getV_advance (y : Reg) : (s.advance).getV y = s.getV y := rfl
@[simp] theorem State.getV_skipIf (c : Bool) (y : Reg) : (s.skipIf c).getV y = s.getV y := rfl

@[simp] theorem State.base_eq : s.base = s.i.toNat := rfl

@[simp] theorem State.setPc_setPc (w w' : Word) : (s.setPc w).setPc w' = s.setPc w' := rfl

end Sys2Proof.Machine
end

