-- ==== Sys2Proof/Laws/Ops.lean ====
section
/-! SUPPORT. What the shared operations can do, each said once: the stack, the address check, the digit check, loading
registers, and the lowest latched key. -/

namespace Sys2Proof.Machine

/-! ## The stack -/

theorem State.push_of_lt (s : State) (w : Word) (h : s.sp.val < 16) :
    s.push w = some { s with stack := s.stack.set s.sp.val w, sp := ⟨s.sp.val + 1, by omega⟩ } := by
  simp [State.push, h]

theorem State.push_eq_none (s : State) (w : Word) : s.push w = none ↔ s.sp.val = 16 := by
  have := s.sp.isLt
  unfold State.push
  split <;> simp <;> omega

theorem State.pop_of_pos (s : State) (h : 0 < s.sp.val) (h' : s.sp.val - 1 < 16) :
    s.pop = some (s.stack[s.sp.val - 1], { s with sp := ⟨s.sp.val - 1, by omega⟩ }) := by
  simp [State.pop, h]

theorem State.pop_eq_none (s : State) : s.pop = none ↔ s.sp.val = 0 := by
  unfold State.pop
  split <;> simp <;> omega

/-- If a push succeeds, the pushed state is the old one but for the new entry and the depth. -/
theorem State.push_eq_some {s t : State} {w : Word} (h : s.push w = some t) :
    ∃ hlt : s.sp.val < 16, t = { s with stack := s.stack.set s.sp.val w, sp := ⟨s.sp.val + 1, by omega⟩ } := by
  unfold State.push at h
  split at h
  · exact ⟨‹_›, (Option.some.inj h).symm⟩
  · cases h

/-- If a pop succeeds, the popped value is the top entry and only the depth has changed. -/
theorem State.pop_eq_some {s t : State} {w : Word} (h : s.pop = some (w, t)) :
    ∃ hlt : s.sp.val - 1 < 16, 0 < s.sp.val ∧ w = s.stack[s.sp.val - 1] ∧
      t = { s with sp := ⟨s.sp.val - 1, by omega⟩ } := by
  unfold State.pop at h
  split at h
  · have hs := s.sp.isLt
    refine ⟨by omega, ‹_›, ?_, ?_⟩
    · exact (congrArg Prod.fst (Option.some.inj h)).symm
    · exact (congrArg Prod.snd (Option.some.inj h)).symm
  · cases h

/-! ## The address check and the digit check -/

/-- A checked access completes exactly when every address exists, and then its state is the given one. -/
theorem withBytes_eq_next {s run t : State} {w : Word} {base n : Nat} :
    withBytes s w base n run = .next t ↔ (n = 0 ∨ base + (n - 1) ≤ 0xFFF) ∧ t = run := by
  unfold withBytes
  rw [← firstBadAddr_eq_none]
  cases firstBadAddr base n <;> simp [raise, eq_comm]

/-- A checked access faults exactly with the lowest bad address. -/
theorem withBytes_eq_fault {s run : State} {w : Word} {base n : Nat} {f : Fault} :
    withBytes s w base n run = .fault f ↔
      ∃ a, firstBadAddr base n = some a ∧ f = .memoryFault s.pc a (some w) := by
  unfold withBytes
  cases firstBadAddr base n <;> simp [raise, eq_comm]

theorem withBytes_ne_refused {s run : State} {w : Word} {base n : Nat} {r : Refusal} :
    withBytes s w base n run ≠ .refused r := by
  unfold withBytes
  cases firstBadAddr base n <;> simp [raise]

theorem withDigit_of_lt {s : State} {w : Word} {x : Reg} {run : Fin 16 → State} (h : (s.getV x).toNat < 16) :
    withDigit s w x run = .next (run ⟨(s.getV x).toNat, h⟩) := by
  simp [withDigit, h]

theorem withDigit_eq_next {s t : State} {w : Word} {x : Reg} {run : Fin 16 → State} :
    withDigit s w x run = .next t ↔ ∃ h : (s.getV x).toNat < 16, t = run ⟨(s.getV x).toNat, h⟩ := by
  unfold withDigit
  split <;> simp_all [raise, eq_comm]

theorem withDigit_eq_fault {s : State} {w : Word} {x : Reg} {run : Fin 16 → State} {f : Fault} :
    withDigit s w x run = .fault f ↔ 0x0F < (s.getV x).toNat ∧ f = .operandRange s.pc w (s.getV x) := by
  unfold withDigit
  split
  · simp; omega
  · simp only [raise, Host.Outcome.fault.injEq]
    constructor
    · rintro rfl
      exact ⟨by omega, rfl⟩
    · rintro ⟨_, rfl⟩
      rfl

theorem withDigit_ne_refused {s : State} {w : Word} {x : Reg} {run : Fin 16 → State} {r : Refusal} :
    withDigit s w x run ≠ .refused r := by
  unfold withDigit
  split <;> simp [raise]

/-! ## Registers in a row -/

@[simp] theorem regOf_val (x : Reg) : regOf x.val = x := by
  simp [regOf]

theorem regOf_eq_iff {k : Nat} (hk : k < 16) (y : Reg) : y = regOf k ↔ y.val = k := by
  constructor
  · rintro rfl
    exact Nat.mod_eq_of_lt hk
  · rintro rfl
    simp

@[simp] theorem State.length_regsUpTo (s : State) (x : Reg) : (s.regsUpTo x).length = x.val + 1 := by
  simp [State.regsUpTo]

theorem State.getD_regsUpTo (s : State) {x k : Reg} (h : k ≤ x) (d : Byte) :
    (s.regsUpTo x).getD k.val d = s.getV k := by
  have : k.val < x.val + 1 := Nat.lt_succ_of_le h
  simp [State.regsUpTo, List.getD, this]

/-- Loading a row of registers is a chain of writes, one register more at a time. -/
theorem State.loadRegs_induct (P : Nat → State → Prop) (s : State) (bs : List Byte) (h0 : P 0 s)
    (hs : ∀ k t, k < bs.length → P k t → P (k + 1) (t.setV (regOf k) (bs.getD k 0x00#8))) :
    P bs.length (s.loadRegs bs) := by
  unfold State.loadRegs
  suffices h : ∀ n, n ≤ bs.length →
      P n ((List.range n).foldl (fun t k => t.setV (regOf k) (bs.getD k 0x00#8)) s) from h _ le_rfl
  intro n
  induction n with
  | zero => intro _; exact h0
  | succ n ih =>
    intro hn
    rw [List.range_succ, List.foldl_append]
    exact hs n _ (by omega) (ih (by omega))

/-- What every register holds after a row of registers is loaded. -/
theorem State.getV_loadRegs (s : State) (bs : List Byte) (h : bs.length ≤ 16) (y : Reg) :
    (s.loadRegs bs).getV y = if y.val < bs.length then bs.getD y.val 0x00#8 else s.getV y := by
  refine State.loadRegs_induct
    (fun n t => t.getV y = if y.val < n then bs.getD y.val 0x00#8 else s.getV y) s bs (by simp) ?_
  intro k t hk ht
  rw [State.getV_setV]
  by_cases hy : y.val = k
  · have h1 : y = regOf k := (regOf_eq_iff (by omega) y).2 hy
    rw [if_pos h1, if_pos (by omega), hy]
  · have h1 : ¬ y = regOf k := fun hc => hy ((regOf_eq_iff (by omega) y).1 hc)
    have h2 : (y.val < k + 1) = (y.val < k) := by simp only [eq_iff_iff]; omega
    rw [if_neg h1, ht]
    simp only [h2]

/-- Loading registers changes nothing but registers. -/
theorem State.loadRegs_frame (s : State) (bs : List Byte) : { s.loadRegs bs with v := s.v } = s := by
  refine State.loadRegs_induct (fun _ t => ({ t with v := s.v } : State) = s) s bs rfl ?_
  intro k t _ ht
  exact ht

@[simp] theorem State.loadRegs_i (s : State) (bs : List Byte) : (s.loadRegs bs).i = s.i :=
  (congrArg State.i (s.loadRegs_frame bs) :)
@[simp] theorem State.loadRegs_pc (s : State) (bs : List Byte) : (s.loadRegs bs).pc = s.pc :=
  (congrArg State.pc (s.loadRegs_frame bs) :)
@[simp] theorem State.loadRegs_sp (s : State) (bs : List Byte) : (s.loadRegs bs).sp = s.sp :=
  (congrArg State.sp (s.loadRegs_frame bs) :)
@[simp] theorem State.loadRegs_stack (s : State) (bs : List Byte) : (s.loadRegs bs).stack = s.stack :=
  (congrArg State.stack (s.loadRegs_frame bs) :)
@[simp] theorem State.loadRegs_dt (s : State) (bs : List Byte) : (s.loadRegs bs).dt = s.dt :=
  (congrArg State.dt (s.loadRegs_frame bs) :)
@[simp] theorem State.loadRegs_st (s : State) (bs : List Byte) : (s.loadRegs bs).st = s.st :=
  (congrArg State.st (s.loadRegs_frame bs) :)
@[simp] theorem State.loadRegs_mem (s : State) (bs : List Byte) : (s.loadRegs bs).mem = s.mem :=
  (congrArg State.mem (s.loadRegs_frame bs) :)
@[simp] theorem State.loadRegs_fb (s : State) (bs : List Byte) : (s.loadRegs bs).fb = s.fb :=
  (congrArg State.fb (s.loadRegs_frame bs) :)
@[simp] theorem State.loadRegs_key (s : State) (bs : List Byte) : (s.loadRegs bs).key = s.key :=
  (congrArg State.key (s.loadRegs_frame bs) :)
@[simp] theorem State.loadRegs_wait (s : State) (bs : List Byte) : (s.loadRegs bs).wait = s.wait :=
  (congrArg State.wait (s.loadRegs_frame bs) :)
@[simp] theorem State.loadRegs_waitLatch (s : State) (bs : List Byte) : (s.loadRegs bs).waitLatch = s.waitLatch :=
  (congrArg State.waitLatch (s.loadRegs_frame bs) :)
@[simp] theorem State.loadRegs_draws (s : State) (bs : List Byte) : (s.loadRegs bs).draws = s.draws :=
  (congrArg State.draws (s.loadRegs_frame bs) :)

/-! ## Call and return -/

/-- If CALL answers a next state, an entry was free, and the state is the old one with the return address pushed. -/
theorem execCall_eq_next {s t : State} {nnn : Addr12} (h : execCall nnn s = .next t) :
    ∃ hlt : s.sp.val < 16, t =
      { s with
        stack := s.stack.set s.sp.val (s.pc + 2#16), sp := ⟨s.sp.val + 1, by omega⟩, pc := addrWord nnn } := by
  unfold execCall at h
  cases hp : s.push (s.pc + 2#16) with
  | none => simp [hp, raise] at h
  | some u =>
    obtain ⟨hlt, rfl⟩ := State.push_eq_some hp
    simp only [hp, Host.Outcome.next.injEq] at h
    exact ⟨hlt, h.symm⟩

theorem execCall_of_lt (s : State) (nnn : Addr12) (h : s.sp.val < 16) :
    execCall nnn s = .next
      { s with
        stack := s.stack.set s.sp.val (s.pc + 2#16), sp := ⟨s.sp.val + 1, by omega⟩, pc := addrWord nnn } := by
  simp only [execCall, State.push_of_lt s _ h, State.setPc]

theorem execRet_of_pos (s : State) (h : 0 < s.sp.val) (h' : s.sp.val - 1 < 16) :
    execRet s = .next { s with sp := ⟨s.sp.val - 1, by omega⟩, pc := s.stack[s.sp.val - 1] } := by
  simp only [execRet, State.pop_of_pos s h h', State.setPc]

/-- If RET answers a next state, an entry was in use, and only PC and the depth have changed. -/
theorem execRet_eq_next {s t : State} (h : execRet s = .next t) :
    ∃ hlt : s.sp.val - 1 < 16, 0 < s.sp.val ∧ t =
      { s with sp := ⟨s.sp.val - 1, by omega⟩, pc := s.stack[s.sp.val - 1] } := by
  unfold execRet at h
  cases hp : s.pop with
  | none => simp [hp, raise] at h
  | some u =>
    obtain ⟨w, u⟩ := u
    obtain ⟨hlt, h0, rfl, rfl⟩ := State.pop_eq_some hp
    simp only [hp, Host.Outcome.next.injEq] at h
    exact ⟨hlt, h0, h.symm⟩

/-! ## The lowest latched key (R56) -/

theorem lowestKey_eq_none {latch : BitVec 16} : lowestKey latch = none ↔ latch = 0#16 := by
  simp only [lowestKey, List.find?_eq_none, List.mem_range]
  constructor
  · intro h
    ext k hk
    simpa [BitVec.getLsbD_eq_getElem hk] using h k hk
  · rintro rfl k _
    simp

theorem lowestKey_eq_some {latch : BitVec 16} {k : Nat} :
    lowestKey latch = some k ↔ k < 16 ∧ latch.getLsbD k = true ∧ ∀ j, j < k → latch.getLsbD j = false := by
  simp only [lowestKey, List.find?_range_eq_some, List.mem_range, Bool.not_eq_true']
  tauto

end Sys2Proof.Machine
end

