-- ==== Sys2Proof/Laws/PerInstr.lean ====
section
/-! SUPPORT. Statements about every instruction, made one constructor at a time. -/

/-- The top nibble of an instruction's word is its group, by which the decoder dispatches (spec/30_encoding.md R50). -/
def Sys2Proof.Laws.EncodeRow.group : Sys2Proof.Instr → BitVec 4
  | .sys _ => 0x0
  | .cls => 0x0
  | .ret => 0x0
  | .jp _ => 0x1
  | .call _ => 0x2
  | .seImm _ _ => 0x3
  | .sneImm _ _ => 0x4
  | .seReg _ _ => 0x5
  | .ldImm _ _ => 0x6
  | .addImm _ _ => 0x7
  | .ldReg _ _ => 0x8
  | .or _ _ => 0x8
  | .and _ _ => 0x8
  | .xor _ _ => 0x8
  | .addReg _ _ => 0x8
  | .sub _ _ => 0x8
  | .shr _ _ => 0x8
  | .subn _ _ => 0x8
  | .shl _ _ => 0x8
  | .sneReg _ _ => 0x9
  | .ldI _ => 0xA
  | .jpV0 _ => 0xB
  | .rnd _ _ => 0xC
  | .drw _ _ _ => 0xD
  | .skp _ => 0xE
  | .sknp _ => 0xE
  | .ldVxDt _ => 0xF
  | .ldVxK _ => 0xF
  | .ldDtVx _ => 0xF
  | .ldStVx _ => 0xF
  | .addIVx _ => 0xF
  | .ldFVx _ => 0xF
  | .ldBVx _ => 0xF
  | .ldMemVx _ => 0xF
  | .ldVxMem _ => 0xF

/-- An instruction's word falls in its own group. -/
def Sys2Proof.Laws.EncodeRow.Statement (i : Sys2Proof.Instr) : Prop :=
  Sys2Proof.fieldTop (Sys2Proof.encode i) = Sys2Proof.Laws.EncodeRow.group i

open Sys2Proof

theorem Sys2Proof.Laws.EncodeRow.sys (nnn : Addr12) :
    Sys2Proof.Laws.EncodeRow.Statement (.sys nnn) := fieldTop_wordNNN _ _
theorem Sys2Proof.Laws.EncodeRow.cls :
    Sys2Proof.Laws.EncodeRow.Statement (.cls) :=
  (by decide : fieldTop 0x00E0#16 = 0x0#4)
theorem Sys2Proof.Laws.EncodeRow.ret :
    Sys2Proof.Laws.EncodeRow.Statement (.ret) :=
  (by decide : fieldTop 0x00EE#16 = 0x0#4)
theorem Sys2Proof.Laws.EncodeRow.jp (nnn : Addr12) :
    Sys2Proof.Laws.EncodeRow.Statement (.jp nnn) := fieldTop_wordNNN _ _
theorem Sys2Proof.Laws.EncodeRow.call (nnn : Addr12) :
    Sys2Proof.Laws.EncodeRow.Statement (.call nnn) := fieldTop_wordNNN _ _
theorem Sys2Proof.Laws.EncodeRow.seImm (x : Reg) (nn : Byte) :
    Sys2Proof.Laws.EncodeRow.Statement (.seImm x nn) := fieldTop_wordXNN _ _ _
theorem Sys2Proof.Laws.EncodeRow.sneImm (x : Reg) (nn : Byte) :
    Sys2Proof.Laws.EncodeRow.Statement (.sneImm x nn) := fieldTop_wordXNN _ _ _
theorem Sys2Proof.Laws.EncodeRow.seReg (x : Reg) (y : Reg) :
    Sys2Proof.Laws.EncodeRow.Statement (.seReg x y) := fieldTop_wordXYN _ _ _ _
theorem Sys2Proof.Laws.EncodeRow.ldImm (x : Reg) (nn : Byte) :
    Sys2Proof.Laws.EncodeRow.Statement (.ldImm x nn) := fieldTop_wordXNN _ _ _
theorem Sys2Proof.Laws.EncodeRow.addImm (x : Reg) (nn : Byte) :
    Sys2Proof.Laws.EncodeRow.Statement (.addImm x nn) := fieldTop_wordXNN _ _ _
theorem Sys2Proof.Laws.EncodeRow.ldReg (x : Reg) (y : Reg) :
    Sys2Proof.Laws.EncodeRow.Statement (.ldReg x y) := fieldTop_wordXYN _ _ _ _
theorem Sys2Proof.Laws.EncodeRow.or (x : Reg) (y : Reg) :
    Sys2Proof.Laws.EncodeRow.Statement (.or x y) := fieldTop_wordXYN _ _ _ _
theorem Sys2Proof.Laws.EncodeRow.and (x : Reg) (y : Reg) :
    Sys2Proof.Laws.EncodeRow.Statement (.and x y) := fieldTop_wordXYN _ _ _ _
theorem Sys2Proof.Laws.EncodeRow.xor (x : Reg) (y : Reg) :
    Sys2Proof.Laws.EncodeRow.Statement (.xor x y) := fieldTop_wordXYN _ _ _ _
theorem Sys2Proof.Laws.EncodeRow.addReg (x : Reg) (y : Reg) :
    Sys2Proof.Laws.EncodeRow.Statement (.addReg x y) := fieldTop_wordXYN _ _ _ _
theorem Sys2Proof.Laws.EncodeRow.sub (x : Reg) (y : Reg) :
    Sys2Proof.Laws.EncodeRow.Statement (.sub x y) := fieldTop_wordXYN _ _ _ _
theorem Sys2Proof.Laws.EncodeRow.shr (x : Reg) (y : Reg) :
    Sys2Proof.Laws.EncodeRow.Statement (.shr x y) := fieldTop_wordXYN _ _ _ _
theorem Sys2Proof.Laws.EncodeRow.subn (x : Reg) (y : Reg) :
    Sys2Proof.Laws.EncodeRow.Statement (.subn x y) := fieldTop_wordXYN _ _ _ _
theorem Sys2Proof.Laws.EncodeRow.shl (x : Reg) (y : Reg) :
    Sys2Proof.Laws.EncodeRow.Statement (.shl x y) := fieldTop_wordXYN _ _ _ _
theorem Sys2Proof.Laws.EncodeRow.sneReg (x : Reg) (y : Reg) :
    Sys2Proof.Laws.EncodeRow.Statement (.sneReg x y) := fieldTop_wordXYN _ _ _ _
theorem Sys2Proof.Laws.EncodeRow.ldI (nnn : Addr12) :
    Sys2Proof.Laws.EncodeRow.Statement (.ldI nnn) := fieldTop_wordNNN _ _
theorem Sys2Proof.Laws.EncodeRow.jpV0 (nnn : Addr12) :
    Sys2Proof.Laws.EncodeRow.Statement (.jpV0 nnn) := fieldTop_wordNNN _ _
theorem Sys2Proof.Laws.EncodeRow.rnd (x : Reg) (nn : Byte) :
    Sys2Proof.Laws.EncodeRow.Statement (.rnd x nn) := fieldTop_wordXNN _ _ _
theorem Sys2Proof.Laws.EncodeRow.drw (x : Reg) (y : Reg) (n : Fin 16) :
    Sys2Proof.Laws.EncodeRow.Statement (.drw x y n) := fieldTop_wordXYN _ _ _ _
theorem Sys2Proof.Laws.EncodeRow.skp (x : Reg) :
    Sys2Proof.Laws.EncodeRow.Statement (.skp x) := fieldTop_wordXNN _ _ _
theorem Sys2Proof.Laws.EncodeRow.sknp (x : Reg) :
    Sys2Proof.Laws.EncodeRow.Statement (.sknp x) := fieldTop_wordXNN _ _ _
theorem Sys2Proof.Laws.EncodeRow.ldVxDt (x : Reg) :
    Sys2Proof.Laws.EncodeRow.Statement (.ldVxDt x) := fieldTop_wordXNN _ _ _
theorem Sys2Proof.Laws.EncodeRow.ldVxK (x : Reg) :
    Sys2Proof.Laws.EncodeRow.Statement (.ldVxK x) := fieldTop_wordXNN _ _ _
theorem Sys2Proof.Laws.EncodeRow.ldDtVx (x : Reg) :
    Sys2Proof.Laws.EncodeRow.Statement (.ldDtVx x) := fieldTop_wordXNN _ _ _
theorem Sys2Proof.Laws.EncodeRow.ldStVx (x : Reg) :
    Sys2Proof.Laws.EncodeRow.Statement (.ldStVx x) := fieldTop_wordXNN _ _ _
theorem Sys2Proof.Laws.EncodeRow.addIVx (x : Reg) :
    Sys2Proof.Laws.EncodeRow.Statement (.addIVx x) := fieldTop_wordXNN _ _ _
theorem Sys2Proof.Laws.EncodeRow.ldFVx (x : Reg) :
    Sys2Proof.Laws.EncodeRow.Statement (.ldFVx x) := fieldTop_wordXNN _ _ _
theorem Sys2Proof.Laws.EncodeRow.ldBVx (x : Reg) :
    Sys2Proof.Laws.EncodeRow.Statement (.ldBVx x) := fieldTop_wordXNN _ _ _
theorem Sys2Proof.Laws.EncodeRow.ldMemVx (x : Reg) :
    Sys2Proof.Laws.EncodeRow.Statement (.ldMemVx x) := fieldTop_wordXNN _ _ _
theorem Sys2Proof.Laws.EncodeRow.ldVxMem (x : Reg) :
    Sys2Proof.Laws.EncodeRow.Statement (.ldVxMem x) := fieldTop_wordXNN _ _ _
end

