-- ==== Sys2Proof/Laws/Step.lean ====
section
/-! SUPPORT. What a step can do, and what the fetch sees. -/

namespace Sys2Proof.Machine

@[simp] theorem fetchable_iff {pc : Word} : fetchable pc = true ↔ 0x200 ≤ pc.toNat ∧ pc.toNat + 1 ≤ 0xFFF := by
  simp [fetchable]

theorem State.fetchWord_eq_some {s : State} {w : Word} :
    s.fetchWord = some w ↔ (0x200 ≤ s.pc.toNat ∧ s.pc.toNat + 1 ≤ 0xFFF) ∧ Memory.readWord s.mem s.pc.toNat = w := by
  unfold State.fetchWord
  split
  · simp_all
  · simp_all

theorem State.fetchWord_eq_none {s : State} :
    s.fetchWord = none ↔ ¬ (0x200 ≤ s.pc.toNat ∧ s.pc.toNat + 1 ≤ 0xFFF) := by
  unfold State.fetchWord
  split
  · simp_all
  · simp_all

theorem step_of_wait {s : State} {x : Reg} (h : s.wait = some x) : step s = .next (stepWait x s) := by
  simp [step, h]

theorem step_of_no_fetch {s : State} (hw : s.wait = none) (hf : s.fetchWord = none) : step s = raiseFetch s := by
  simp [step, hw, hf]

theorem step_of_instr {s : State} {w : Word} {i : Instr} (hw : s.wait = none) (hf : s.fetchWord = some w)
    (hd : decode w = .instr i) : step s = exec i s := by
  simp [step, hw, hf, hd]

theorem step_of_unknown {s : State} {w u : Word} (hw : s.wait = none) (hf : s.fetchWord = some w)
    (hd : decode w = .unknown u) : step s = raiseUnknown u s := by
  simp [step, hw, hf, hd]

/-- Everything a step can be: a step of the wait, a fetch fault, an UNKNOWN word, or an instruction. -/
theorem step_cases (s : State) :
    (∃ x, s.wait = some x ∧ step s = .next (stepWait x s)) ∨
    (s.wait = none ∧ s.fetchWord = none ∧ step s = .fault (.memoryFault s.pc s.pc.toNat none)) ∨
    (∃ w u, s.wait = none ∧ s.fetchWord = some w ∧ decode w = .unknown u ∧
      step s = .fault (.unknownInstruction s.pc u)) ∨
    (∃ w i, s.wait = none ∧ s.fetchWord = some w ∧ decode w = .instr i ∧ step s = exec i s) := by
  cases hw : s.wait with
  | some x => exact .inl ⟨x, rfl, step_of_wait hw⟩
  | none =>
    cases hf : s.fetchWord with
    | none => exact .inr (.inl ⟨rfl, rfl, step_of_no_fetch hw hf⟩)
    | some w =>
      cases hd : decode w with
      | unknown u => exact .inr (.inr (.inl ⟨w, u, rfl, rfl, hd, step_of_unknown hw hf hd⟩))
      | instr i => exact .inr (.inr (.inr ⟨w, i, rfl, rfl, hd, step_of_instr hw hf hd⟩))

theorem stepWait_of_idle {s : State} {x : Reg} (h : s.waitLatch = 0#16) : stepWait x s = s := by
  simp [stepWait, lowestKey_eq_none.2 h]

theorem stepWait_of_key {s : State} {x : Reg} {k : Nat} (h : lowestKey s.waitLatch = some k) :
    stepWait x s = (s.setV x (BitVec.ofNat 8 k)).setWait none 0x0000#16 := by
  simp [stepWait, h]

theorem callStep_of_next {s t : State} (h : step s = .next t) :
    callStep s = (t, .ok (s.nextInstr.any isDisplay) t.soundActive) := by
  simp [callStep, h]

theorem callStep_of_fault {s : State} {f : Fault} (h : step s = .fault f) :
    callStep s = (s.afterFault f, .fault f (s.afterFault f).soundActive) := by
  simp [callStep, h]

/-- The word a state reads at `a` is the bytes at `a` and `a + 1`, the first one upper (R36). -/
theorem Memory.readWord_eq (m : Memory) (a : Nat) :
    Memory.readWord m a = Memory.read m a ++ Memory.read m (a + 1) := rfl

/-! ## Schedules -/

@[simp] theorem runOps_nil (s : State) : runOps [] s = s := rfl

@[simp] theorem runOps_cons (op : HostOp) (ops : List HostOp) (s : State) :
    runOps (op :: ops) s = runOps ops (op.apply s) := rfl

/-- What every operation keeps, every schedule keeps. -/
theorem runOps_induct {P : State → Prop} (hop : ∀ op s, P s → P (HostOp.apply op s)) (ops : List HostOp) (s : State)
    (h : P s) : P (runOps ops s) := by
  induction ops generalizing s with
  | nil => exact h
  | cons op ops ih => exact ih _ (hop op s h)

/-! ## Frames -/

theorem KeepsBut.refl (parts : List Part) (s : State) : KeepsBut parts s s := by
  intro p _
  cases p <;> simp [Part.same]

theorem KeepsBut.trans {parts : List Part} {s t u : State} (h : KeepsBut parts s t) (h' : KeepsBut parts t u) :
    KeepsBut parts s u := by
  intro p hp
  have h1 := h p hp
  have h2 := h' p hp
  cases p <;> simp only [Part.same] at h1 h2 ⊢ <;> simp_all

theorem RegsBut.refl (xs : List Reg) (s : State) : RegsBut xs s s := fun _ _ => rfl

end Sys2Proof.Machine
end

