-- ==== Sys2Proof/Tests/Slice0.lean ====
section
/-! SUPPORT. The model's own tests. Expected results are the spec's: the worked examples and derived vectors of
spec/95_test_vectors.md (S1 to S8 and sections 2.1 to 2.9), each named where it is used. -/

namespace Sys2Proof.Tests

open Sys2Proof Sys2Proof.Machine

/-! ## WellFormed: the one check, and the decoder's answer on the same word -/

theorem test_wf_refuses_sys_0E0 : (Instr.sys 0x0E0).wf = false := by decide
theorem test_wf_refuses_sys_0EE : (Instr.sys 0x0EE).wf = false := by decide
theorem test_wf_accepts_sys_0E1 : (Instr.sys 0x0E1).wf = true := by decide

/-! ## Decoding: every constructor's word, written bit by bit from the encodings of R47 and R51 -/

theorem test_decode_fixed_and_nnn :
    decode 0b0000000100100011#16 = .instr (.sys 0x123) ∧ decode 0b0000000011100000#16 = .instr .cls ∧
    decode 0b0000000011101110#16 = .instr .ret ∧ decode 0b0001101010111100#16 = .instr (.jp 0xABC) ∧
    decode 0b0010101010111100#16 = .instr (.call 0xABC) ∧ decode 0b1010000100100011#16 = .instr (.ldI 0x123) ∧
    decode 0b1011000100100011#16 = .instr (.jpV0 0x123) := by decide

theorem test_decode_xnn :
    decode 0b0011101001010101#16 = .instr (.seImm 0xA 0x55) ∧
    decode 0b0100101001010101#16 = .instr (.sneImm 0xA 0x55) ∧
    decode 0b0110101001010101#16 = .instr (.ldImm 0xA 0x55) ∧
    decode 0b0111101001010101#16 = .instr (.addImm 0xA 0x55) ∧
    decode 0b1100000111111111#16 = .instr (.rnd 0x1 0xFF) := by decide

theorem test_decode_xy :
    decode 0b0101101010110000#16 = .instr (.seReg 0xA 0xB) ∧ decode 0b1001101010110000#16 = .instr (.sneReg 0xA 0xB) ∧
    decode 0b1000101010110000#16 = .instr (.ldReg 0xA 0xB) ∧ decode 0b1000101010110001#16 = .instr (.or 0xA 0xB) ∧
    decode 0b1000101010110010#16 = .instr (.and 0xA 0xB) ∧ decode 0b1000101010110011#16 = .instr (.xor 0xA 0xB) ∧
    decode 0b1000101010110100#16 = .instr (.addReg 0xA 0xB) ∧ decode 0b1000101010110101#16 = .instr (.sub 0xA 0xB) ∧
    decode 0b1000101010110110#16 = .instr (.shr 0xA 0xB) ∧ decode 0b1000101010110111#16 = .instr (.subn 0xA 0xB) ∧
    decode 0b1000101010111110#16 = .instr (.shl 0xA 0xB) ∧
    decode 0b1101000100101111#16 = .instr (.drw 0x1 0x2 0xF) := by decide

theorem test_decode_x :
    decode 0b1110000110011110#16 = .instr (.skp 0x1) ∧ decode 0b1110000110100001#16 = .instr (.sknp 0x1) ∧
    decode 0b1111000100000111#16 = .instr (.ldVxDt 0x1) ∧ decode 0b1111000100001010#16 = .instr (.ldVxK 0x1) ∧
    decode 0b1111000100010101#16 = .instr (.ldDtVx 0x1) ∧ decode 0b1111000100011000#16 = .instr (.ldStVx 0x1) ∧
    decode 0b1111000100011110#16 = .instr (.addIVx 0x1) ∧ decode 0b1111000100101001#16 = .instr (.ldFVx 0x1) ∧
    decode 0b1111000100110011#16 = .instr (.ldBVx 0x1) ∧ decode 0b1111000101010101#16 = .instr (.ldMemVx 0x1) ∧
    decode 0b1111000101100101#16 = .instr (.ldVxMem 0x1) := by decide

/-- Section 2.1, the words that are UNKNOWN, and the two SYS words next to CLS and RET. -/
theorem test_decode_unknown :
    [0x5AB1#16, 0x8AB8#16, 0x8ABF#16, 0x9ABF#16, 0xE000#16, 0xE19F#16, 0xF000#16, 0xF166#16, 0xF19E#16, 0xF1A1#16,
      0xF130#16, 0xFFFF#16].all (fun w => decode w == .unknown w) = true ∧
    decode 0x00E1#16 = .instr (.sys 0x0E1) ∧ decode 0x00FF#16 = .instr (.sys 0x0FF) := by decide

/-- A table word as the host numbers it: the upper byte is the one at the lower address. -/
theorem test_decodeTableWord : decodeTableWord 16 0x8AB4 = some (.addReg 0xA 0xB) ∧ decodeTableWord 16 0x5AB1 = none := by
  decide

theorem test_encode_written : encode (.drw 0x1 0x2 0xF) = 0xD12F#16 ∧ encode (.skp 0x1) = 0xE19E#16 ∧
    encode (.shl 0xA 0xB) = 0x8ABE#16 ∧ encode (.jp 0xABC) = 0x1ABC#16 := by decide

/-! ## One step on a small state -/

/-- A state that differs from reset in the registers listed. -/
def withRegs (rs : List (Reg × Byte)) : State := rs.foldl (fun s p => s.setV p.1 p.2) State.reset

/-- The state after one step of the word `w` placed at PC. -/
def after (w : Nat) (s : State) : Option State :=
  match step (s.withFetchWord 16 w) with
  | .next t => some t
  | _ => none

/-- The fault of one step of the word `w` placed at PC. -/
def faultOf (w : Nat) (s : State) : Option Fault :=
  match step (s.withFetchWord 16 w) with
  | .fault f => some f
  | _ => none

/-- Some registers and PC after a step. -/
def regsPc (xs : List Reg) (o : Option State) : Option (List Byte × Word) := o.map fun t => (xs.map t.getV, t.pc)

-- section 2.3
theorem test_sys : (after 0x0123 State.reset).map (·.pc) = some 0x202 := by decide
theorem test_jp : (after 0x1234 State.reset).map (·.pc) = some 0x234 := by decide
theorem test_call : (after 0x2300 State.reset).map (fun t => (t.stack[0], t.sp, t.pc)) = some (0x202, 1, 0x300) := by decide
theorem test_call_overflow :
    faultOf 0x2300 { State.reset with sp := 16 } = some (.stackOverflow 0x200 0x2300) := by decide
theorem test_ret :
    (after 0x00EE { State.reset with sp := 2, stack := State.reset.stack.set 1 0x456 }).map
      (fun t => (t.pc, t.sp, t.stack[1])) = some (0x456, 1, 0x456) := by decide
theorem test_ret_underflow : faultOf 0x00EE State.reset = some (.stackUnderflow 0x200 0x00EE) := by decide
theorem test_jpV0 : (after 0xBFFF (withRegs [(0, 0xFF)])).map (·.pc) = some 0x10FE := by decide
theorem test_jpV0_ignores_V1 : (after 0xB300 (withRegs [(1, 0x05)])).map (·.pc) = some 0x300 := by decide
theorem test_seImm : (after 0x3310 (withRegs [(3, 0x10)])).map (·.pc) = some 0x204 := by decide
theorem test_sneImm : (after 0x4310 (withRegs [(3, 0x10)])).map (·.pc) = some 0x202 := by decide
theorem test_seReg : (after 0x5120 (withRegs [(1, 0x07), (2, 0x08)])).map (·.pc) = some 0x202 := by decide
theorem test_sneReg : (after 0x9120 (withRegs [(1, 0x07), (2, 0x08)])).map (·.pc) = some 0x204 := by decide

-- section 2.4
theorem test_ldImm : regsPc [0xA] (after 0x6A42 State.reset) = some ([0x42], 0x202) := by decide
theorem test_addImm : regsPc [0, 15] (after 0x7001 (withRegs [(0, 0xFF), (15, 0x55)])) = some ([0x00, 0x55], 0x202) := by
  decide
theorem test_ldReg : regsPc [0, 1] (after 0x8010 (withRegs [(1, 0x9C)])) = some ([0x9C, 0x9C], 0x202) := by decide
theorem test_or : regsPc [0, 15] (after 0x8011 (withRegs [(0, 0xF0), (1, 0x0F), (15, 0x55)])) =
    some ([0xFF, 0x55], 0x202) := by decide
theorem test_and : regsPc [0, 15] (after 0x8012 (withRegs [(0, 0xF3), (1, 0x3F), (15, 0x55)])) =
    some ([0x33, 0x55], 0x202) := by decide
theorem test_xor : regsPc [0, 15] (after 0x8013 (withRegs [(0, 0xFF), (1, 0x0F), (15, 0x55)])) =
    some ([0xF0, 0x55], 0x202) := by decide
theorem test_addReg : regsPc [0, 15] (after 0x8014 (withRegs [(0, 0xFF), (1, 0x01)])) = some ([0x00, 0x01], 0x202) := by
  decide
theorem test_addReg_x_is_F : regsPc [15] (after 0x8F14 (withRegs [(15, 0x01), (1, 0x01)])) = some ([0x00], 0x202) := by
  decide
theorem test_sub : regsPc [0, 15] (after 0x8015 (withRegs [(0, 0x03), (1, 0x05)])) = some ([0xFE, 0x00], 0x202) := by
  decide
theorem test_sub_equal : regsPc [0, 15] (after 0x8015 (withRegs [(0, 0x42), (1, 0x42)])) = some ([0x00, 0x01], 0x202) := by
  decide
theorem test_shr : regsPc [0, 15] (after 0x8016 (withRegs [(0, 0x02), (1, 0xFF), (15, 0x55)])) =
    some ([0x01, 0x00], 0x202) := by decide
theorem test_shr_x_is_F : regsPc [15] (after 0x8FF6 (withRegs [(15, 0x03)])) = some ([0x01], 0x202) := by decide
theorem test_subn : regsPc [0, 15] (after 0x8017 (withRegs [(0, 0x03), (1, 0x05)])) = some ([0x02, 0x01], 0x202) := by
  decide
theorem test_shl : regsPc [0, 15] (after 0x801E (withRegs [(0, 0x81)])) = some ([0x02, 0x01], 0x202) := by decide
theorem test_shl_x_is_F : regsPc [15] (after 0x8FFE (withRegs [(15, 0x40)])) = some ([0x00], 0x202) := by decide

/-- R89's example, r = 0xA7, for the byte drawn. -/
theorem test_rnd_example :
    (match State.rndWith 0xA7 3 0x0F State.reset with | .next t => some (t.getV 3, t.pc) | _ => none) =
      some (0x07, 0x202) := by decide

/-- C000 gives 0 whatever is drawn. -/
theorem test_rnd_mask_0 (r : Byte) : ∃ t, State.rndWith r 0 0x00 State.reset = .next t ∧ t.getV 0 = 0x00#8 :=
  ⟨_, rfl, by simp⟩

/-- C0FF completes and counts the draw. -/
theorem test_rnd_counts_draw : ∃ t, step (State.reset.withFetchWord 16 0xC0FF) = .next t ∧ t.draws = 1 :=
  ⟨_, rfl, rfl⟩

-- section 2.5
theorem test_ldI : (after 0xA2F0 State.reset).map (fun t => (t.i, t.pc)) = some (0x2F0, 0x202) := by decide
theorem test_addIVx : (after 0xF01E { withRegs [(0, 0x01)] with i := 0xFFFF }).map (·.i) = some 0x0000 := by decide
theorem test_addIVx_above_FFF : (after 0xF01E { withRegs [(0, 0x01)] with i := 0x0FFF }).map (·.i) = some 0x1000 := by
  decide
theorem test_ldFVx : (after 0xF429 (withRegs [(4, 0x0A)])).map (·.i) = some 0x032 := by decide
theorem test_ldFVx_range : faultOf 0xF029 (withRegs [(0, 0x10)]) = some (.operandRange 0x200 0xF029 0x10) := by decide
theorem test_ldBVx :
    (after 0xF033 { withRegs [(0, 0x7B)] with i := 0x300 }).map (fun t => Memory.readBytes t.mem 0x300 3) =
      some [1, 2, 3] := by decide
theorem test_ldBVx_fault :
    faultOf 0xF033 { State.reset with i := 0xFFE } = some (.memoryFault 0x200 0x1000 (some 0xF033)) := by decide
theorem test_ldMemVx :
    (after 0xF155 { withRegs [(0, 0x11), (1, 0x22), (2, 0x33)] with i := 0x300 }).map
      (fun t => (Memory.readBytes t.mem 0x300 3, t.i)) = some ([0x11, 0x22, 0x00], 0x300) := by decide
theorem test_ldMemVx_fault :
    faultOf 0xF155 { State.reset with i := 0xFFF } = some (.memoryFault 0x200 0x1000 (some 0xF155)) := by decide
theorem test_ldVxMem : regsPc [0, 1, 2, 3, 4, 5] (after 0xF465 (withRegs [(5, 0x77)])) =
    some ([0xF0, 0x90, 0x90, 0x90, 0xF0, 0x77], 0x202) := by decide
theorem test_ldVxMem_fault :
    faultOf 0xF065 { State.reset with i := 0x1000 } = some (.memoryFault 0x200 0x1000 (some 0xF065)) := by decide

-- section 2.6
/-- The lit pixels of a state among the listed (column, row) pairs. -/
def lit (ps : List (Fin 64 × Fin 32)) (s : State) : List Bool := ps.map fun p => Framebuffer.pixel s.fb p.1 p.2

/-- A framebuffer with one pixel on. -/
def onePixel (x : Fin 64) (y : Fin 32) : Framebuffer := Framebuffer.setPixel Framebuffer.clear x y true

theorem test_cls : (after 0x00E0 { State.reset with fb := onePixel 5 6 }).map (fun t => (t.fb == Framebuffer.clear, t.pc)) =
    some (true, 0x202) := by decide +kernel
/-- Glyph 0 at (62, 1): the seven pixels of the table's row are lit, columns 64 and 65 clipped. -/
theorem test_drw_clips :
    (after 0xD015 (withRegs [(0, 0x3E), (1, 0x01)])).map (fun t =>
      (lit [(62, 1), (63, 1), (62, 2), (63, 2), (62, 5), (63, 5), (0, 1), (0, 2)] t, t.getV 15)) =
      some ([true, true, true, false, true, true, false, false], 0x00) := by decide +kernel
/-- The byte 0x80 at 0x01A on a lit pixel: it goes off, and VF is 1. -/
theorem test_drw_collision :
    (after 0xD011 { State.reset with i := 0x01A, fb := onePixel 0 0 }).map (fun t => (lit [(0, 0), (1, 0)] t, t.getV 15)) =
      some ([false, false], 0x01) := by decide +kernel

-- section 2.7
theorem test_skp :
    (after 0xE59E { withRegs [(5, 0x07)] with key := State.reset.key.set 7 true }).map (·.pc) = some 0x204 := by decide
theorem test_skp_range : faultOf 0xE59E (withRegs [(5, 0x10)]) = some (.operandRange 0x200 0xE59E 0x10) := by decide
theorem test_sknp :
    (after 0xE5A1 { withRegs [(5, 0x07)] with key := State.reset.key.set 7 true }).map (·.pc) = some 0x202 := by decide
theorem test_sknp_range : faultOf 0xE5A1 (withRegs [(5, 0xFF)]) = some (.operandRange 0x200 0xE5A1 0xFF) := by decide
theorem test_ldVxK : (after 0xF30A State.reset).map (fun t => (t.wait, t.waitLatch, t.pc)) = some (some 3, 0, 0x202) := by
  decide
/-- WAIT = 0, `set_key(9, true)`, `set_key(2, true)`, `step()`: the lower key wins. -/
theorem test_wait_lowest_key :
    (runOps [.setKey 9 true, .setKey 2 true, .step] { State.reset with wait := some 0 }).getV 0 = 0x02 ∧
    (runOps [.setKey 9 true, .setKey 2 true, .step] { State.reset with wait := some 0 }).wait = none := by decide
/-- WAIT = 0, `set_key(4, true)`, `set_key(4, false)`, `step()`: the latch keeps the press. -/
theorem test_wait_released_press :
    (runOps [.setKey 4 true, .setKey 4 false, .step] { State.reset with wait := some 0 }).getV 0 = 0x04 := by decide
theorem test_setKey_16 : setKeyCall 16 true State.reset = none := by decide

-- section 2.8
theorem test_ldVxDt : regsPc [15] (after 0xFF07 { State.reset with dt := 0x09 }) = some ([0x09], 0x202) := by decide
theorem test_ldDtVx : (after 0xF215 (withRegs [(2, 0x0A)])).map (·.dt) = some 0x0A := by decide
theorem test_ldStVx : (after 0xF218 (withRegs [(2, 0x02)])).map (fun t => (t.st, t.soundActive)) = some (0x02, true) := by
  decide
/-- S5: DT = 10 after 10 ticks is 0, and an 11th leaves it 0. -/
theorem test_ticks :
    (runOps (List.replicate 10 .tick) { State.reset with dt := 0x0A }).dt = 0x00 ∧
    (runOps (List.replicate 11 .tick) { State.reset with dt := 0x0A }).dt = 0x00 := by decide

-- sections 2.2 and 2.9
theorem test_odd_pc : regsPc [0] (after 0x6001 { State.reset with pc := 0x201 }) = some ([0x01], 0x203) := by decide
theorem test_fetch_at_FFE : regsPc [0] (after 0x6001 { State.reset with pc := 0xFFE }) = some ([0x01], 0x1000) := by decide
/-- An UNKNOWN word at 0x200: the fault, and PC + 2. -/
theorem test_unknown_step :
    (callStep (State.reset.withFetchWord 16 0x5121)).2 = .fault (.unknownInstruction 0x200 0x5121) false ∧
    (callStep (State.reset.withFetchWord 16 0x5121)).1.pc = 0x202 := by decide
theorem test_cls_step_result : (callStep (State.reset.withFetchWord 16 0x00E0)).2 = .ok true false := by decide +kernel
theorem test_load_refused : load [0x12, 0x34] 0xFFF State.reset = none := by decide
theorem test_load_at_end : (load [0x12, 0x34] 0xFFE State.reset).map (fun t => Memory.readBytes t.mem 0xFFE 2) =
    some [0x12, 0x34] := by decide
theorem test_font : Memory.readBytes State.reset.mem 0x04B 6 = [0xF0, 0x80, 0xF0, 0x80, 0x80, 0x00] := by decide

/-! ## Witnesses: for each statement with hypotheses, a state and operands that meet all of them, clause by clause -/

/-- The reset state with the word `w` at PC. -/
def atReset (w : Nat) : State := State.reset.withFetchWord 16 w

theorem inv_reset : Inv State.reset := ⟨rfl, by decide, by decide, fun _ => rfl⟩

theorem inv_atReset : Inv (atReset 0x6A42) := ⟨by decide, by decide, by decide, fun _ => by decide⟩

theorem witness_DecodeOfEncode : (Instr.sys 0xFFF).wf = true ∧ (Instr.call 0xABC).wf = true := by decide

theorem witness_EncodeOfDecode : decode 0x1ABC#16 = .instr (.jp 0xABC) := by decide

theorem witness_DecoderFollowsOpcodeMap : decode 0x8AB6#16 = .instr (.shr 0xA 0xB) ∧ SelectsRow 0x8AB6#16 (.shr 0 0) ∧
    SelectsRow 0x0000#16 (.sys 0) ∧ ¬ SelectsRow 0x00EE#16 (.sys 0) := by
  unfold SelectsRow
  decide

theorem witness_StepRunsDecodedInstruction :
    (atReset 0x6A42).wait = none ∧ 0x200 ≤ (atReset 0x6A42).pc.toNat ∧ (atReset 0x6A42).pc.toNat + 1 ≤ 0xFFF ∧
    decode (Memory.read (atReset 0x6A42).mem (atReset 0x6A42).pc.toNat ++
      Memory.read (atReset 0x6A42).mem ((atReset 0x6A42).pc.toNat + 1)) = .instr (.ldImm 0xA 0x42) := by decide

theorem witness_FetchOutsideWindowFaults :
    ({ State.reset with pc := 0x1FF } : State).wait = none ∧
    ({ State.reset with pc := 0x1FF } : State).pc.toNat < 0x200 ∧
    ({ State.reset with pc := 0xFFF } : State).pc.toNat + 1 > 0xFFF := by decide

theorem witness_UnknownWordFaultsAndSkips :
    (atReset 0x5121).wait = none ∧ 0x200 ≤ (atReset 0x5121).pc.toNat ∧ (atReset 0x5121).pc.toNat + 1 ≤ 0xFFF ∧
    0x5121#16 = Memory.read (atReset 0x5121).mem (atReset 0x5121).pc.toNat ++
      Memory.read (atReset 0x5121).mem ((atReset 0x5121).pc.toNat + 1) ∧
    decode 0x5121#16 = .unknown 0x5121#16 := by decide

theorem witness_StepInWait :
    ({ State.reset with wait := some 3 } : State).wait = some 3 ∧
    ({ State.reset with wait := some 3 } : State).waitLatch = 0#16 ∧
    ({ State.reset with wait := some 3, waitLatch := 0x8000 } : State).waitLatch ≠ 0#16 := by decide

theorem witness_FaultingStepKeepsState :
    step (atReset 0x00EE) = .fault (.stackUnderflow 0x200 0x00EE) ∧ (Fault.stackUnderflow 0x200 0x00EE).code ≠ 4 :=
  ⟨rfl, by decide⟩

theorem witness_InstructionFaultsExactlyAsListed :
    FaultCause { State.reset with sp := 16 } (.call 0x300) (.stackOverflow 0x200 0x2300) ∧
    FaultCause State.reset .ret (.stackUnderflow 0x200 0x00EE) ∧
    FaultCause (withRegs [(5, 0x10)]) (.skp 5) (.operandRange 0x200 0xE59E 0x10) ∧
    LowestBad 0xFFE 3 0x1000 ∧ LowestBad 0xFFFF 1 0xFFFF := by
  refine ⟨⟨rfl, rfl⟩, ⟨rfl, rfl⟩, ⟨by decide, rfl⟩, ⟨by decide, by decide, by decide, ?_⟩,
    by decide, by decide, by decide, ?_⟩ <;> intro b h1 h2 <;> omega

theorem witness_StepResultFlags :
    (∃ t, step (atReset 0x00E0) = .next t) ∧ ∃ f, step (atReset 0x00EE) = .fault f := ⟨⟨_, rfl⟩, ⟨_, rfl⟩⟩

theorem witness_StepKeepsInvariant : Inv (atReset 0x6A42) ∧ ∃ t, step (atReset 0x6A42) = .next t := ⟨inv_atReset, ⟨_, rfl⟩⟩

theorem witness_ScheduleKeepsInvariant : Inv State.reset := inv_reset

/-- A memory that lists two bytes, and one that overwrites a font byte. -/
theorem witness_ReadAfterWrite : Memory.wf [(0x000, 0x77), (0x300, 0x01)] = true ∧ Memory.wf [(0xFFF, 0xAB)] = true := by
  decide

theorem witness_MemoryFormIsCanonical : Memory.wf [(0x000, 0x77), (0xFFF, 0x01)] = true ∧ 0xFFF ≤ 0xFFF ∧
    Memory.wf [] = true ∧ ∀ a, Memory.read [] a = Memory.read [] a := ⟨by decide, by decide, rfl, fun _ => rfl⟩

theorem witness_writers_and_frames :
    (∃ t, exec (.ldImm 0xA 0x42) State.reset = .next t) ∧ Instr.ldImm 0xA 0x42 ≠ .cls ∧
    (∀ x y n, Instr.ldImm 0xA 0x42 ≠ .drw x y n) ∧ (∀ x, Instr.ldImm 0xA 0x42 ≠ .ldBVx x) ∧
    (∀ x, Instr.ldImm 0xA 0x42 ≠ .ldMemVx x) ∧ (∀ nnn, Instr.ldImm 0xA 0x42 ≠ .ldI nnn) ∧
    (∀ x, Instr.ldImm 0xA 0x42 ≠ .addIVx x) ∧ (∀ x, Instr.ldImm 0xA 0x42 ≠ .ldFVx x) ∧
    (∀ nnn, Instr.ldImm 0xA 0x42 ≠ .call nnn) ∧ Instr.ldImm 0xA 0x42 ≠ .ret ∧
    (∀ x, Instr.ldImm 0xA 0x42 ≠ .ldDtVx x) ∧ (∀ x, Instr.ldImm 0xA 0x42 ≠ .ldStVx x) ∧
    (∀ x, Instr.ldImm 0xA 0x42 ≠ .ldVxK x) ∧ (∀ x, Instr.ldImm 0xA 0x42 ≠ .skp x) ∧
    (∀ x, Instr.ldImm 0xA 0x42 ≠ .sknp x) := by
  refine ⟨⟨_, rfl⟩, ?_⟩
  simp

theorem witness_NextPcOfEveryInstruction :
    ({ State.reset with pc := 0xFFE } : State).pc.toNat ≤ 0xFFE ∧
    ∃ t, exec (.seImm 0 0x00) { State.reset with pc := 0xFFE } = .next t := ⟨by decide, ⟨_, rfl⟩⟩

theorem witness_ClsClearsDisplay : (atReset 0x00E0).nextInstr = some .cls := by decide

/-- R65's example, glyph 0 at (0, 0), covers (0, 0) and not (1, 1). -/
theorem witness_SpriteCovers :
    SpriteCovers State.reset 0 1 5 0 0 ∧ ¬ SpriteCovers State.reset 0 1 5 1 1 := by
  unfold SpriteCovers
  decide

theorem witness_DrwTogglesCoveredPixels :
    ((0 : Fin 16).val = 0 ∨ ({ State.reset with i := 0xFFFF } : State).i.toNat + ((0 : Fin 16).val - 1) ≤ 0xFFF) ∧
    ((2 : Fin 16).val = 0 ∨ ({ State.reset with i := 0xFFE } : State).i.toNat + ((2 : Fin 16).val - 1) ≤ 0xFFF) ∧
    LowestBad ({ State.reset with i := 0xFFE } : State).i.toNat (3 : Fin 16).val 0x1000 := by
  refine ⟨by decide, by decide, by decide, by decide, by decide, ?_⟩
  intro b h1 h2
  omega

theorem witness_DrawTwiceRestores : (0 : Reg) ≠ 15 ∧ (1 : Reg) ≠ 15 ∧
    (∃ t u, exec (.drw 0 1 5) State.reset = .next t ∧ exec (.drw 0 1 5) t = .next u) ∧
    (∃ x y, SpriteCovers State.reset 0 1 5 x y) ∧ ∀ x y, Framebuffer.pixel State.reset.fb x y = false :=
  ⟨by decide, by decide, ⟨_, _, rfl, rfl⟩, ⟨0, 0, witness_SpriteCovers.1⟩, by
    intro x y
    simp [Framebuffer.pixel, State.reset]⟩

theorem witness_JpSetsPc : State.reset.wait = none ∧ (0x1FF#12).toNat < 0x200 ∧ (0xFFF#12).toNat = 0xFFF := by decide

theorem witness_CallPushesReturnAddress : State.reset.sp.val < 16 ∧ ({ State.reset with sp := 15 } : State).sp.val < 16 := by
  decide

theorem witness_SeventeenthNestedCallOverflows :
    State.reset.sp.val = 0 ∧ (List.replicate 16 (0x200 : Addr12)).length = 16 := by decide

theorem witness_RetPopsReturnAddress :
    0 < ({ State.reset with sp := 16 } : State).sp.val ∧ ({ State.reset with sp := 16 } : State).sp.val - 1 < 16 ∧
    State.reset.sp.val = 0 ∧ ∃ t, exec (.call 0x300) State.reset = .next t ∧ t.sp = t.sp ∧ t.stack = t.stack :=
  ⟨by decide, by decide, by decide, ⟨_, rfl, rfl, rfl⟩⟩

theorem witness_CallsUnwind : [(0x300 : Addr12), 0x400] ≠ [] ∧
    ({ State.reset with sp := 14 } : State).sp.val + [(0x300 : Addr12), 0x400].length ≤ 16 := by decide

theorem witness_ZeroedMemoryRunsToFetchFault :
    State.reset.wait = none ∧ 0x200 ≤ State.reset.pc.toNat ∧ State.reset.pc.toNat + 2 * 1792 = 0x1000 ∧
    ∀ a, State.reset.pc.toNat ≤ a → a ≤ 0xFFF → Memory.read State.reset.mem a = 0x00#8 := by
  refine ⟨rfl, by decide, by decide, fun a h _ => ?_⟩
  have h1 : State.reset.pc.toNat = 0x200 := rfl
  have h2 : fontBytes.length = 80 := rfl
  have h3 : fontBytes[a - 0]? = none := List.getElem?_eq_none (by omega)
  simp [State.reset, Memory.read, Memory.resetByte, fontBase, List.getD] at h3 ⊢
  simp [h3]

theorem witness_flag_register_apart : (0 : Reg) ≠ 15 ∧ (14 : Reg) ≠ 15 := by decide

theorem witness_RndMasksDrawnByte : (0x0F#8).getLsbD 7 = false := by decide

theorem witness_LdFPointsAtGlyph :
    ((withRegs [(0, 0x0F)]).getV 0).toNat ≤ 0x0F ∧ ((withRegs [(0, 0x10)]).getV 0).toNat > 0x0F := by decide

theorem witness_BcdStoresThreeDigits :
    Memory.wf ({ State.reset with i := 0xFFD } : State).mem = true ∧
    ({ State.reset with i := 0xFFD } : State).i.toNat + 2 ≤ 0xFFF ∧
    LowestBad ({ State.reset with i := 0xFFE } : State).i.toNat 3 0x1000 := by
  refine ⟨by decide, by decide, by decide, by decide, by decide, ?_⟩
  intro b h1 h2
  omega

theorem witness_StoreAndLoadRegisters :
    Memory.wf ({ State.reset with i := 0xFF0 } : State).mem = true ∧
    ({ State.reset with i := 0xFF0 } : State).i.toNat + (15 : Reg).val ≤ 0xFFF ∧
    LowestBad ({ State.reset with i := 0xFF1 } : State).i.toNat ((15 : Reg).val + 1) 0x1000 ∧
    (3 : Reg) ≤ 15 ∧ (3 : Reg) < 4 := by
  refine ⟨by decide, by decide, ⟨by decide, by decide, by decide, ?_⟩, by decide, by decide⟩
  intro b h1 h2
  omega

theorem witness_StoreThenLoadRestoresRegisters :
    ∃ t r : State, Memory.wf State.reset.mem = true ∧ exec (.ldMemVx 2) { State.reset with i := 0x300 } = .next t ∧
      t.mem = t.mem ∧ t.i = ({ State.reset with i := 0x300 } : State).i ∧ exec (.ldVxMem 2) t = .next r ∧ (1 : Reg) ≤ 2 :=
  ⟨_, _, rfl, rfl, rfl, rfl, rfl, by decide⟩

/-- P5's bytes in V0 and V1: the next word is overwritten with JP 0x20C. -/
def selfModifying : State := { withRegs [(0, 0x12), (1, 0x0C)] with i := 0x202 }

theorem witness_StoredCodeIsFetchedNext :
    Memory.wf selfModifying.mem = true ∧ selfModifying.wait = none ∧
    (∃ t, exec (.ldMemVx 1) selfModifying = .next t) ∧ (0 : Reg) < 1 ∧
    (selfModifying.pc + 2#16).toNat = selfModifying.i.toNat + (0 : Reg).val ∧
    0x200 ≤ (selfModifying.pc + 2#16).toNat ∧
    decode (selfModifying.getV 0 ++ selfModifying.getV (0 + 1)) = .instr (.jp 0x20C) :=
  ⟨by decide, by decide, ⟨_, rfl⟩, by decide, by decide, by decide, by decide⟩

theorem witness_KeySkipsReadKeyVx :
    ((withRegs [(5, 0x0F)]).getV 5).toNat < 16 ∧ ((withRegs [(5, 0x10)]).getV 5).toNat > 0x0F := by decide

theorem witness_KeyPressEndsWait :
    (∃ t, exec (.ldVxK 3) State.reset = .next t) ∧ State.reset.keyDown 9 = false ∧
    ({ State.reset with key := State.reset.key.set 9 true } : State).keyDown 9 = true := ⟨⟨_, rfl⟩, by decide, by decide⟩

theorem witness_SetKeyLatchesPresses : 15 < 16 ∧ (8 : Fin 16) ≠ 9 := by decide

theorem witness_LoadCopiesProgram :
    Memory.wf State.reset.mem = true ∧ 0xFFE + [0x12#8, 0x34#8].length ≤ 0x1000 ∧
    0xFFF + [0x12#8, 0x34#8].length > 0x1000 := by decide

theorem witness_SafeRun : SafeRun [.tick, .step] (atReset 0x6A42) := by
  refine ⟨fun h => ?_, fun _ f => ?_, trivial⟩
  · cases h
  · have h : step (HostOp.apply .tick (atReset 0x6A42)) = .next _ := rfl
    rw [h]
    simp

end Sys2Proof.Tests
end

section
/-! SUPPORT. What the skips of 3XNN and 4XNN do (spec/42_control_flow.md R73, R74), and that an instruction which
only sets PC keeps every piece of state. -/

namespace Sys2Proof.Machine

/-- A frame leaves PC out, so setting PC is inside every frame. -/
theorem KeepsBut.setPc (parts : List Part) (s : State) (w : Word) : KeepsBut parts s (s.setPc w) := by
  intro p _
  cases p <;> simp [Part.same]

theorem KeepsBut.skipIf (parts : List Part) (s : State) (c : Bool) : KeepsBut parts s (s.skipIf c) :=
  KeepsBut.setPc parts s _

/-- A skip adds to PC the length of one word or of two (R58). -/
theorem State.skipIf_pc_eq_add (s : State) (c : Bool) : (s.skipIf c).pc = s.pc + if c then 4#16 else 2#16 := by
  cases c <;> simp

theorem exec_seImm (x : Reg) (nn : Byte) (s : State) :
    exec (.seImm x nn) s = .next (s.skipIf (s.getV x == nn)) := rfl

theorem exec_sneImm (x : Reg) (nn : Byte) (s : State) :
    exec (.sneImm x nn) s = .next (s.skipIf (s.getV x != nn)) := rfl

/-- Settles O37: both instructions are one `skipIf`, whose condition picks the length added to PC. -/
theorem skipsOnImmediate : Obligations.SkipsOnImmediate := by
  intro s x nn
  constructor
  · refine ⟨s.skipIf (s.getV x == nn), exec_seImm x nn s, ?_, KeepsBut.skipIf [] s _⟩
    simp only [State.skipIf_pc_eq_add, beq_iff_eq]
  · refine ⟨s.skipIf (s.getV x != nn), exec_sneImm x nn s, ?_, KeepsBut.skipIf [] s _⟩
    simp only [State.skipIf_pc_eq_add, bne_iff_ne, ite_not]

end Sys2Proof.Machine
end

section
/-! SUPPORT. What the shared write of VX without a flag does (spec/43_alu.md R78 to R83), and the loads and the
immediate addition that are one such write. -/

namespace Sys2Proof.Machine

/-- Writing one register is inside the frame that leaves out that register. -/
theorem RegsBut.setV (s : State) (x : Reg) (b : Byte) : RegsBut [x] s (s.setV x b) := by
  intro r hr
  rw [State.getV_setV, if_neg (List.mem_singleton.not.1 hr)]

/-- Writing a register is inside every frame that leaves out the registers. -/
theorem KeepsBut.setV {parts : List Part} (h : .regs ∈ parts) (s : State) (x : Reg) (b : Byte) :
    KeepsBut parts s (s.setV x b) := by
  intro p hp
  cases p
  case regs => exact absurd h hp
  all_goals simp [Part.same]

/-- The default advance keeps a frame, which leaves PC out. -/
theorem KeepsBut.advance {parts : List Part} {s t : State} (h : KeepsBut parts s t) : KeepsBut parts s t.advance := by
  intro p hp
  have hst := h p hp
  cases p <;> exact hst

/-- A write of VX without a flag completes, puts the result in VX, advances PC and changes no other register: VF only
if it is VX. -/
theorem State.writeV_effect (s : State) (x : Reg) (b : Byte) :
    ∃ t, s.writeV x b = .next t ∧ t.getV x = b ∧ t.pc = s.pc + 2#16 ∧ RegsBut [x] s t ∧ KeepsBut [.regs] s t :=
  ⟨(s.setV x b).advance, rfl, by simp, by simp, RegsBut.setV s x b,
    (KeepsBut.setV (List.mem_singleton_self _) s x b).advance⟩

theorem exec_ldImm (x : Reg) (nn : Byte) (s : State) : exec (.ldImm x nn) s = s.writeV x nn := rfl

theorem exec_ldReg (x y : Reg) (s : State) : exec (.ldReg x y) s = s.writeV x (s.getV y) := rfl

theorem exec_addImm (x : Reg) (nn : Byte) (s : State) : exec (.addImm x nn) s = s.writeV x (s.getV x + nn) := rfl

/-- Settles O39: both loads are one write of VX, by NN and by VY. -/
theorem loadsWriteVx : Obligations.LoadsWriteVx := by
  intro s x y nn
  rw [exec_ldImm, exec_ldReg]
  exact ⟨s.writeV_effect x nn, s.writeV_effect x (s.getV y)⟩

/-- Settles O40: the addition is one write of VX by the sum of two bytes, which wraps at 256. -/
theorem addImmediateWritesNoFlag : Obligations.AddImmediateWritesNoFlag := by
  intro s x nn
  obtain ⟨t, hexec, hx, hpc, hregs, hkeep⟩ := s.writeV_effect x (s.getV x + nn)
  refine ⟨t, (exec_addImm x nn s).trans hexec, ?_, hpc, hregs, hkeep⟩
  rw [hx, BitVec.toNat_add]

end Sys2Proof.Machine
end

section
/-! SUPPORT. What ANNN does (spec/44_index_memory.md R90): the address, zero-extended, is written to I. -/

namespace Sys2Proof.Machine

/-- Writing I is inside every frame that leaves out I. -/
theorem KeepsBut.setI {parts : List Part} (h : .i ∈ parts) (s : State) (w : Word) : KeepsBut parts s (s.setI w) := by
  intro p hp
  cases p
  case i => exact absurd h hp
  all_goals simp [Part.same]

/-- A 12-bit address keeps its value as a 16-bit word. -/
theorem addrWord_toNat (nnn : Addr12) : (addrWord nnn).toNat = nnn.toNat :=
  BitVec.toNat_setWidth_of_le (by decide)

theorem exec_ldI (nnn : Addr12) (s : State) : exec (.ldI nnn) s = .next (s.setI (addrWord nnn)).advance := rfl

/-- Settles O46: the instruction is one write of I, by the zero-extended address, and the default advance. -/
theorem ldISetsIndex : Obligations.LdISetsIndex := by
  intro s nnn
  refine ⟨(s.setI (addrWord nnn)).advance, exec_ldI nnn s, ?_, ?_, ?_⟩
  · rw [State.advance_i, State.setI_i, addrWord_toNat]
  · rw [State.advance_pc, State.setI_pc]
  · exact (KeepsBut.setI (List.mem_singleton_self _) s _).advance

end Sys2Proof.Machine
end

section
/-! SUPPORT. What the timer instructions do (spec/46_timers.md R99 to R101), and what a run of ticks leaves in ST
(spec/60_exceptions.md R108). -/

namespace Sys2Proof.Machine

/-- Writing DT is inside every frame that leaves out DT. -/
theorem KeepsBut.setDt {parts : List Part} (h : .dt ∈ parts) (s : State) (b : Byte) : KeepsBut parts s (s.setDt b) := by
  intro p hp
  cases p
  case dt => exact absurd h hp
  all_goals simp [Part.same]

/-- Writing ST is inside every frame that leaves out ST. -/
theorem KeepsBut.setSt {parts : List Part} (h : .st ∈ parts) (s : State) (b : Byte) : KeepsBut parts s (s.setSt b) := by
  intro p hp
  cases p
  case st => exact absurd h hp
  all_goals simp [Part.same]

/-- Counting down is subtraction on the naturals, which stops at 0. -/
@[simp] theorem countDown_toNat (b : Byte) : (countDown b).toNat = b.toNat - 1 := by
  unfold countDown
  split
  · bv_omega
  · omega

@[simp] theorem tick_st (s : State) : (tick s).st = countDown s.st := rfl

@[simp] theorem HostOp.apply_tick (s : State) : HostOp.tick.apply s = Machine.tick s := rfl

theorem State.soundActive_iff (s : State) : s.soundActive = true ↔ 0 < s.st.toNat := by
  simp [State.soundActive]

theorem runOps_ticks_st_toNat (n : Nat) (s : State) :
    (runOps (List.replicate n .tick) s).st.toNat = s.st.toNat - n := by
  induction n generalizing s with
  | zero => rfl
  | succ n ih =>
    rw [List.replicate_succ, runOps_cons, ih, HostOp.apply_tick, tick_st, countDown_toNat]
    omega

/-- The sound is active exactly until as many ticks as ST says have come. -/
theorem soundActive_runOps_ticks_iff (n : Nat) (s : State) :
    (runOps (List.replicate n .tick) s).soundActive = true ↔ n < s.st.toNat := by
  rw [State.soundActive_iff, runOps_ticks_st_toNat, Nat.sub_pos_iff_lt]

theorem exec_ldVxDt (x : Reg) (s : State) : exec (.ldVxDt x) s = s.writeV x s.dt := rfl

theorem exec_ldDtVx (x : Reg) (s : State) : exec (.ldDtVx x) s = .next (s.setDt (s.getV x)).advance := rfl

theorem exec_ldStVx (x : Reg) (s : State) : exec (.ldStVx x) s = .next (s.setSt (s.getV x)).advance := rfl

/-- Settles O57: each instruction is one write, of VX, DT or ST, and the default advance; after FX18 the ticks count
down from VX. -/
theorem timerInstructionsMove : Obligations.TimerInstructionsMove := by
  intro s x
  refine ⟨?readDt, ?setDt, ?setSt⟩
  case readDt =>
    rw [exec_ldVxDt]
    exact s.writeV_effect x s.dt
  case setDt =>
    refine ⟨_, exec_ldDtVx x s, ?_, ?_, (KeepsBut.setDt (List.mem_singleton_self _) s _).advance⟩
    · rw [State.advance_dt, State.setDt_dt]
    · rw [State.advance_pc, State.setDt_pc]
  case setSt =>
    have hst : (s.setSt (s.getV x)).advance.st = s.getV x := by rw [State.advance_st, State.setSt_st]
    refine ⟨_, exec_ldStVx x s, hst, ?_, ?_, (KeepsBut.setSt (List.mem_singleton_self _) s _).advance⟩
    · intro n
      rw [soundActive_runOps_ticks_iff, hst]
    · rw [State.advance_pc, State.setSt_pc]

end Sys2Proof.Machine
end

section
/-! SUPPORT. What a run of ticks leaves in DT and in the rest of the state (spec/60_exceptions.md R108); what it leaves
in ST is `runOps_ticks_st_toNat`. -/

namespace Sys2Proof.Machine

@[simp] theorem tick_dt (s : State) : (tick s).dt = countDown s.dt := rfl

@[simp] theorem tick_pc (s : State) : (tick s).pc = s.pc := rfl

/-- A tick is two writes, of DT and of ST. -/
theorem KeepsBut.tick (s : State) : KeepsBut [.dt, .st] s (Machine.tick s) :=
  (KeepsBut.setDt (by simp) s _).trans (KeepsBut.setSt (by simp) _ _)

/-- One tick more is the run of the others from the ticked state. -/
theorem runOps_ticks_succ (n : Nat) (s : State) :
    runOps (List.replicate (n + 1) .tick) s = runOps (List.replicate n .tick) (tick s) := by
  rw [List.replicate_succ, runOps_cons, HostOp.apply_tick]

theorem runOps_ticks_dt_toNat (n : Nat) (s : State) :
    (runOps (List.replicate n .tick) s).dt.toNat = s.dt.toNat - n := by
  induction n generalizing s with
  | zero => rfl
  | succ n ih =>
    rw [runOps_ticks_succ, ih, tick_dt, countDown_toNat, Nat.sub_sub, Nat.add_comm]

theorem runOps_ticks_pc (n : Nat) (s : State) : (runOps (List.replicate n .tick) s).pc = s.pc := by
  induction n generalizing s with
  | zero => rfl
  | succ n ih => rw [runOps_ticks_succ, ih, tick_pc]

theorem KeepsBut.runOps_ticks (n : Nat) (s : State) :
    KeepsBut [.dt, .st] s (runOps (List.replicate n .tick) s) := by
  induction n generalizing s with
  | zero => exact KeepsBut.refl _ s
  | succ n ih =>
    rw [runOps_ticks_succ]
    exact (KeepsBut.tick s).trans (ih _)

/-- Settles O58: each tick is one step of subtraction that stops at 0, and its two writes are inside the frame; both
facts are kept along any number of ticks. -/
theorem ticksCountDownToZero : Obligations.TicksCountDownToZero := fun s n =>
  ⟨_, rfl, runOps_ticks_dt_toNat n s, runOps_ticks_st_toNat n s, runOps_ticks_pc n s, KeepsBut.runOps_ticks n s⟩

end Sys2Proof.Machine
end

section
/-! SUPPORT. The round trip of the encoding (spec/30_encoding.md R46 to R52): a word whose top nibble and selector
field are known is the word of its format, and the decoder dispatches on exactly those fields. -/

namespace Sys2Proof

/-! ### A word of a known group, and of a known selector field, is its format's word -/

theorem wordNNN_of_top {w : Word} {top : BitVec 4} (h : fieldTop w = top) : wordNNN top (fieldNNN w) = w :=
  h ▸ wordNNN_fields w

theorem wordXNN_of_top {w : Word} {top : BitVec 4} (h : fieldTop w = top) :
    wordXNN top (fieldX w) (fieldNN w) = w :=
  h ▸ wordXNN_fields w

theorem wordXYN_of_top {w : Word} {top : BitVec 4} (h : fieldTop w = top) :
    wordXYN top (fieldX w) (fieldY w) (fieldN w) = w :=
  h ▸ wordXYN_fields w

theorem wordXNN_of_top_low {w : Word} {top : BitVec 4} {nn : Byte} (h : fieldTop w = top) (hnn : fieldNN w = nn) :
    wordXNN top (fieldX w) nn = w :=
  hnn ▸ wordXNN_of_top h

theorem wordXYN_of_top_low {w : Word} {top : BitVec 4} {n : Fin 16} (h : fieldTop w = top) (hn : fieldN w = n) :
    wordXYN top (fieldX w) (fieldY w) n = w :=
  hn ▸ wordXYN_of_top h

/-! ### The decoder on an encoded word -/

/-- SYS is well formed where its word is not that of CLS or RET (R51 row 1). -/
theorem wf_sys_iff {nnn : Addr12} : (Instr.sys nnn).wf = true ↔ nnn ≠ 0x0E0#12 ∧ nnn ≠ 0x0EE#12 := by
  simp [Instr.wf]

theorem decode0_wordNNN {nnn : Addr12} (hwf : (Instr.sys nnn).wf = true) :
    decode0 (wordNNN 0x0 nnn) = .instr (.sys nnn) := by
  obtain ⟨h0, hE⟩ := wf_sys_iff.1 hwf
  have hcls : wordNNN 0x0 nnn ≠ 0x00E0#16 := fun h => h0 ((fieldNNN_wordNNN 0x0 nnn).symm.trans (h ▸ by decide))
  have hret : wordNNN 0x0 nnn ≠ 0x00EE#16 := fun h => hE ((fieldNNN_wordNNN 0x0 nnn).symm.trans (h ▸ by decide))
  rw [decode0, if_neg hcls, if_neg hret, fieldNNN_wordNNN]

/-- Settles O1: the fields of the encoded word are the operands it was put together from, so the decoder takes the
instruction's own arm; SYS alone needs that it is well formed. -/
theorem decodeOfEncode : Obligations.DecodeOfEncode := by
  intro i hwf
  cases i
  case sys => simpa [encode, decode] using decode0_wordNNN hwf
  case cls | ret => decide
  case ldReg | or | and | xor | addReg | sub | shr | subn | shl => simp [encode, decode, decode8]
  case skp | sknp => simp [encode, decode, decodeE]
  case ldVxDt | ldVxK | ldDtVx | ldStVx | addIVx | ldFVx | ldBVx | ldMemVx | ldVxMem => simp [encode, decode, decodeF]
  all_goals simp [encode, decode]

/-! ### The encoding of a decoded word, group by group -/

theorem encode_of_decode0 {w : Word} {i : Instr} (ht : fieldTop w = 0x0) (h : decode0 w = .instr i) :
    i.wf = true ∧ encode i = w := by
  unfold decode0 at h
  split at h
  case isTrue hcls =>
    cases h
    exact ⟨rfl, hcls.symm⟩
  case isFalse hcls =>
    split at h
    case isTrue hret =>
      cases h
      exact ⟨rfl, hret.symm⟩
    case isFalse hret =>
      cases h
      have hw := wordNNN_of_top ht
      refine ⟨wf_sys_iff.2 ⟨fun hc => hcls ?_, fun hc => hret ?_⟩, hw⟩ <;> (rw [hc] at hw; exact hw.symm)

theorem encode_of_decode8 {w : Word} {i : Instr} (ht : fieldTop w = 0x8) (h : decode8 w = .instr i) :
    i.wf = true ∧ encode i = w := by
  unfold decode8 at h
  split at h <;> cases h <;> exact ⟨rfl, wordXYN_of_top_low ht (Fin.ext ‹_›)⟩

theorem encode_of_decodeE {w : Word} {i : Instr} (ht : fieldTop w = 0xE) (h : decodeE w = .instr i) :
    i.wf = true ∧ encode i = w := by
  unfold decodeE at h
  split at h <;> cases h <;> exact ⟨rfl, wordXNN_of_top_low ht (BitVec.eq_of_toNat_eq ‹_›)⟩

theorem encode_of_decodeF {w : Word} {i : Instr} (ht : fieldTop w = 0xF) (h : decodeF w = .instr i) :
    i.wf = true ∧ encode i = w := by
  unfold decodeF at h
  split at h <;> cases h <;> exact ⟨rfl, wordXNN_of_top_low ht (BitVec.eq_of_toNat_eq ‹_›)⟩

/-- Settles O2: along the decoder's arms, the group nibble and the selector field that chose the arm are the fixed bits
the encoder writes, and the operands are the word's other fields. -/
theorem encodeOfDecode : Obligations.EncodeOfDecode := by
  intro w i h
  unfold decode at h
  split at h
  case h_1 ht => exact encode_of_decode0 (BitVec.eq_of_toNat_eq ht) h
  case h_9 ht => exact encode_of_decode8 (BitVec.eq_of_toNat_eq ht) h
  case h_2 ht | h_3 ht | h_11 ht | h_12 ht =>
    cases h
    exact ⟨rfl, wordNNN_of_top (BitVec.eq_of_toNat_eq ht)⟩
  case h_4 ht | h_5 ht | h_7 ht | h_8 ht | h_13 ht =>
    cases h
    exact ⟨rfl, wordXNN_of_top (BitVec.eq_of_toNat_eq ht)⟩
  case h_6 ht | h_10 ht =>
    split at h <;> cases h
    exact ⟨rfl, wordXYN_of_top_low (BitVec.eq_of_toNat_eq ht) ‹_›⟩
  case h_14 ht =>
    cases h
    exact ⟨rfl, wordXYN_of_top (BitVec.eq_of_toNat_eq ht)⟩
  case h_15 ht => exact encode_of_decodeE (BitVec.eq_of_toNat_eq ht) h
  case h_16 =>
    have htop : (fieldTop w).toNat = 15 := by
      simp only [imp_false] at *
      have := (fieldTop w).isLt
      omega
    exact encode_of_decodeF (BitVec.eq_of_toNat_eq htop) h

/-! ### Selecting a row by match and mask (R51) -/

theorem and_topMask (w : Word) : w &&& 0xF000#16 = wordNNN (fieldTop w) 0 := by
  have hmask : wordNNN (fieldTop w) (fieldNNN w) &&& wordNNN (BitVec.allOnes 4) 0 = wordNNN (fieldTop w) 0 :=
    BitVec.and_append.trans (by rw [BitVec.and_allOnes]; simp [wordNNN])
  rwa [wordNNN_fields] at hmask

theorem and_topLowByteMask (w : Word) : w &&& 0xF0FF#16 = wordXNN (fieldTop w) 0 (fieldNN w) := by
  have hmask : wordXNN (fieldTop w) (fieldX w) (fieldNN w) &&& wordXNN (BitVec.allOnes 4) 0 (BitVec.allOnes 8) =
      wordXNN (fieldTop w) 0 (fieldNN w) :=
    BitVec.and_append.trans (by rw [BitVec.and_append, BitVec.and_allOnes, BitVec.and_allOnes]; simp [wordXNN])
  rwa [wordXNN_fields] at hmask

theorem and_topLowNibbleMask (w : Word) : w &&& 0xF00F#16 = wordXYN (fieldTop w) 0 0 (fieldN w) := by
  have hmask : wordXYN (fieldTop w) (fieldX w) (fieldY w) (fieldN w) &&& wordXYN (BitVec.allOnes 4) 0 0 15 =
      wordXYN (fieldTop w) 0 0 (fieldN w) :=
    BitVec.and_append.trans (by
      rw [BitVec.and_append, BitVec.and_append, show BitVec.ofFin (w := 4) 15 = BitVec.allOnes 4 from rfl,
        BitVec.and_allOnes, BitVec.and_allOnes]
      simp [wordXYN])
  rwa [wordXYN_fields] at hmask

theorem encode_and_mask (i : Instr) : encode i &&& (opcodeRow i).2 = (opcodeRow i).1 := by
  cases i
  case cls | ret => decide
  all_goals
    simp only [encode, opcodeRow, and_topMask, and_topLowByteMask, and_topLowNibbleMask, fieldTop_wordNNN, fieldTop_wordXNN,
      fieldTop_wordXYN, fieldNN_wordXNN, fieldN_wordXYN]
    decide

theorem wordNNN_of_select {w : Word} {top : BitVec 4} (h : w &&& 0xF000#16 = wordNNN top 0) :
    wordNNN top (fieldNNN w) = w := by
  rw [and_topMask] at h
  exact wordNNN_of_top (by simpa using congrArg fieldTop h)

theorem wordXNN_of_select {w : Word} {top : BitVec 4} (h : w &&& 0xF000#16 = wordNNN top 0) :
    wordXNN top (fieldX w) (fieldNN w) = w := by
  rw [and_topMask] at h
  exact wordXNN_of_top (by simpa using congrArg fieldTop h)

theorem wordXYN_of_select {w : Word} {top : BitVec 4} (h : w &&& 0xF000#16 = wordNNN top 0) :
    wordXYN top (fieldX w) (fieldY w) (fieldN w) = w := by
  rw [and_topMask] at h
  exact wordXYN_of_top (by simpa using congrArg fieldTop h)

theorem wordXNN_of_select_low {w : Word} {top : BitVec 4} {nn : Byte} (h : w &&& 0xF0FF#16 = wordXNN top 0 nn) :
    wordXNN top (fieldX w) nn = w := by
  rw [and_topLowByteMask] at h
  exact wordXNN_of_top_low (by simpa using congrArg fieldTop h) (by simpa using congrArg fieldNN h)

theorem wordXYN_of_select_low {w : Word} {top : BitVec 4} {n : Fin 16} (h : w &&& 0xF00F#16 = wordXYN top 0 0 n) :
    wordXYN top (fieldX w) (fieldY w) n = w := by
  rw [and_topLowNibbleMask] at h
  exact wordXYN_of_top_low (by simpa using congrArg fieldTop h) (by simpa using congrArg fieldN h)

/-- The instruction of the same row as `i` whose operands are the fields of `w`. -/
def withFieldsOf (w : Word) : Instr → Instr
  | .sys _ => .sys (fieldNNN w)
  | .cls => .cls
  | .ret => .ret
  | .jp _ => .jp (fieldNNN w)
  | .call _ => .call (fieldNNN w)
  | .seImm _ _ => .seImm (fieldX w) (fieldNN w)
  | .sneImm _ _ => .sneImm (fieldX w) (fieldNN w)
  | .seReg _ _ => .seReg (fieldX w) (fieldY w)
  | .ldImm _ _ => .ldImm (fieldX w) (fieldNN w)
  | .addImm _ _ => .addImm (fieldX w) (fieldNN w)
  | .ldReg _ _ => .ldReg (fieldX w) (fieldY w)
  | .or _ _ => .or (fieldX w) (fieldY w)
  | .and _ _ => .and (fieldX w) (fieldY w)
  | .xor _ _ => .xor (fieldX w) (fieldY w)
  | .addReg _ _ => .addReg (fieldX w) (fieldY w)
  | .sub _ _ => .sub (fieldX w) (fieldY w)
  | .shr _ _ => .shr (fieldX w) (fieldY w)
  | .subn _ _ => .subn (fieldX w) (fieldY w)
  | .shl _ _ => .shl (fieldX w) (fieldY w)
  | .sneReg _ _ => .sneReg (fieldX w) (fieldY w)
  | .ldI _ => .ldI (fieldNNN w)
  | .jpV0 _ => .jpV0 (fieldNNN w)
  | .rnd _ _ => .rnd (fieldX w) (fieldNN w)
  | .drw _ _ _ => .drw (fieldX w) (fieldY w) (fieldN w)
  | .skp _ => .skp (fieldX w)
  | .sknp _ => .sknp (fieldX w)
  | .ldVxDt _ => .ldVxDt (fieldX w)
  | .ldVxK _ => .ldVxK (fieldX w)
  | .ldDtVx _ => .ldDtVx (fieldX w)
  | .ldStVx _ => .ldStVx (fieldX w)
  | .addIVx _ => .addIVx (fieldX w)
  | .ldFVx _ => .ldFVx (fieldX w)
  | .ldBVx _ => .ldBVx (fieldX w)
  | .ldMemVx _ => .ldMemVx (fieldX w)
  | .ldVxMem _ => .ldVxMem (fieldX w)

theorem opcodeRow_withFieldsOf (w : Word) (i : Instr) : opcodeRow (withFieldsOf w i) = opcodeRow i := by
  cases i <;> rfl

/-- A word that selects a row is spelled by its own fields in that row. -/
theorem encode_withFieldsOf {w : Word} {i : Instr} (hmask : w &&& (opcodeRow i).2 = (opcodeRow i).1) :
    encode (withFieldsOf w i) = w := by
  cases i
  case cls | ret => exact hmask.symm.trans BitVec.and_allOnes
  case sys | jp | call | ldI | jpV0 => exact wordNNN_of_select hmask
  case seImm | sneImm | ldImm | addImm | rnd => exact wordXNN_of_select hmask
  case drw => exact wordXYN_of_select hmask
  case seReg | ldReg | or | and | xor | addReg | sub | shr | subn | shl | sneReg => exact wordXYN_of_select_low hmask
  all_goals exact wordXNN_of_select_low hmask

theorem wf_withFieldsOf {w : Word} {i : Instr} (h : SelectsRow w i) : (withFieldsOf w i).wf = true := by
  obtain ⟨hmask, hsys⟩ := h
  have hw := encode_withFieldsOf hmask
  cases i
  case sys =>
    obtain ⟨hcls, hret⟩ := hsys rfl
    refine wf_sys_iff.2 ⟨fun hc => hcls ?_, fun hc => hret ?_⟩ <;>
      (rw [← hw, withFieldsOf, hc]; rfl)
  all_goals rfl

/-- The words of CLS and RET are CLS's and RET's alone, and only SYS has an all-zero match column. -/
theorem selectsRow_encode {i : Instr} (hwf : i.wf = true) : SelectsRow (encode i) i := by
  have hdec := decodeOfEncode i hwf
  refine ⟨encode_and_mask i, fun hzero => ⟨fun hcls => ?_, fun hret => ?_⟩⟩
  · obtain rfl : i = .cls := Decoded.instr.inj (hdec.symm.trans (hcls ▸ by decide))
    exact absurd hzero (by decide)
  · obtain rfl : i = .ret := Decoded.instr.inj (hdec.symm.trans (hret ▸ by decide))
    exact absurd hzero (by decide)

/-- Settles O3: both directions go through the round trip, since the words that select a row are the words of its
well-formed instructions. -/
theorem decoderFollowsOpcodeMap : Obligations.DecoderFollowsOpcodeMap := by
  constructor
  · intro w i h
    obtain ⟨hwf, rfl⟩ := encodeOfDecode w i h
    exact selectsRow_encode hwf
  · intro w j h
    refine ⟨withFieldsOf w j, ?_, opcodeRow_withFieldsOf w j⟩
    rw [← decodeOfEncode _ (wf_withFieldsOf h), encode_withFieldsOf h.1]

/-! ### The words that are UNKNOWN (R52), group by group -/

theorem decode8_eq_unknown_iff (w : Word) :
    decode8 w = .unknown w ↔ w.toNat % 16 ∈ [0x8, 0x9, 0xA, 0xB, 0xC, 0xD, 0xF] := by
  have hlt : w.toNat % 16 < 16 := Nat.mod_lt _ (by decide)
  rw [decode8, fieldN_val]
  interval_cases w.toNat % 16 <;> simp

theorem decodeE_eq_unknown_iff (w : Word) : decodeE w = .unknown w ↔ w.toNat % 256 ∉ [0x9E, 0xA1] := by
  rw [decodeE, fieldNN_toNat]
  split <;> simp_all

theorem decodeF_eq_unknown_iff (w : Word) :
    decodeF w = .unknown w ↔ w.toNat % 256 ∉ [0x07, 0x0A, 0x15, 0x18, 0x1E, 0x29, 0x33, 0x55, 0x65] := by
  rw [decodeF, fieldNN_toNat]
  split <;> simp_all

theorem decode0_ne_unknown (w u : Word) : decode0 w ≠ .unknown u := by
  unfold decode0
  split_ifs <;> simp

theorem fieldN_eq_zero_iff (w : Word) : fieldN w = 0 ↔ w.toNat % 16 = 0 := by
  rw [Fin.ext_iff, fieldN_val]
  rfl

theorem decode_eq_unknown_iff (w : Word) :
    decode w = .unknown w ↔
      (w.toNat / 4096 = 0x5 ∧ w.toNat % 16 ≠ 0) ∨
      (w.toNat / 4096 = 0x8 ∧ w.toNat % 16 ∈ [0x8, 0x9, 0xA, 0xB, 0xC, 0xD, 0xF]) ∨
      (w.toNat / 4096 = 0x9 ∧ w.toNat % 16 ≠ 0) ∨
      (w.toNat / 4096 = 0xE ∧ w.toNat % 256 ∉ [0x9E, 0xA1]) ∨
      (w.toNat / 4096 = 0xF ∧ w.toNat % 256 ∉ [0x07, 0x0A, 0x15, 0x18, 0x1E, 0x29, 0x33, 0x55, 0x65]) := by
  have hlt : w.toNat / 4096 < 16 := by have := w.isLt; omega
  rw [decode, fieldTop_toNat, ← decode8_eq_unknown_iff, ← decodeE_eq_unknown_iff, ← decodeF_eq_unknown_iff]
  interval_cases w.toNat / 4096
  all_goals simp [decode0_ne_unknown, fieldN_eq_zero_iff]

/-- An UNKNOWN word is answered as itself. -/
theorem decode_unknown_or_instr (w : Word) : decode w = .unknown w ∨ ∃ i, decode w = .instr i := by
  unfold decode decode0 decode8 decodeE decodeF
  repeat' split
  all_goals simp

/-- Settles O4: each group of the decoder answers UNKNOWN on the selector values its arms leave out. -/
theorem unknownWordsAreExactly : Obligations.UnknownWordsAreExactly := fun w =>
  ⟨decode_unknown_or_instr w, decode_eq_unknown_iff w⟩

/-- Settles O5: the decoder computes the answer for each of the fourteen words. -/
theorem writtenWordsDecode : Obligations.WrittenWordsDecode := by
  unfold Obligations.WrittenWordsDecode
  decide

end Sys2Proof
end

section
/-! SUPPORT. What an instruction that completes can write: the pieces of state (spec/10_state.md sections 4, 6 and 7;
spec/20_memory.md section 3) and the registers (spec/10_state.md R18, R20), each said once for all instructions. -/

namespace Sys2Proof.Machine

/-- An answer of a next state names that state. -/
theorem eq_of_next_eq {s t : State} (h : (.next s : Result) = .next t) : t = s :=
  (Host.Outcome.next.inj h).symm

/-! ### The meaning of each instruction -/

theorem exec_sys (nnn : Addr12) (s : State) : exec (.sys nnn) s = .next s.advance := rfl

theorem exec_cls (s : State) : exec .cls s = .next (s.setFb Framebuffer.clear).advance := rfl

theorem exec_ret (s : State) : exec .ret s = execRet s := rfl

theorem exec_jp (nnn : Addr12) (s : State) : exec (.jp nnn) s = .next (s.setPc (addrWord nnn)) := rfl

theorem exec_call (nnn : Addr12) (s : State) : exec (.call nnn) s = execCall nnn s := rfl

theorem exec_seReg (x y : Reg) (s : State) : exec (.seReg x y) s = .next (s.skipIf (s.getV x == s.getV y)) := rfl

theorem exec_sneReg (x y : Reg) (s : State) : exec (.sneReg x y) s = .next (s.skipIf (s.getV x != s.getV y)) := rfl

theorem exec_or (x y : Reg) (s : State) : exec (.or x y) s = s.writeV x (s.getV x ||| s.getV y) := rfl

theorem exec_and (x y : Reg) (s : State) : exec (.and x y) s = s.writeV x (s.getV x &&& s.getV y) := rfl

theorem exec_xor (x y : Reg) (s : State) : exec (.xor x y) s = s.writeV x (s.getV x ^^^ s.getV y) := rfl

theorem exec_addReg (x y : Reg) (s : State) :
    exec (.addReg x y) s = s.writeVF x (s.getV x + s.getV y) (carryFlag (s.getV x) (s.getV y)) := rfl

theorem exec_sub (x y : Reg) (s : State) :
    exec (.sub x y) s = s.writeVF x (s.getV x - s.getV y) (noBorrowFlag (s.getV x) (s.getV y)) := rfl

theorem exec_subn (x y : Reg) (s : State) :
    exec (.subn x y) s = s.writeVF x (s.getV y - s.getV x) (noBorrowFlag (s.getV y) (s.getV x)) := rfl

theorem exec_shr (x y : Reg) (s : State) :
    exec (.shr x y) s = s.writeVF x (s.getV x >>> 1) (shiftedOutRight (s.getV x)) := rfl

theorem exec_shl (x y : Reg) (s : State) :
    exec (.shl x y) s = s.writeVF x (s.getV x <<< 1) (shiftedOutLeft (s.getV x)) := rfl

theorem exec_jpV0 (nnn : Addr12) (s : State) :
    exec (.jpV0 nnn) s = .next (s.setPc (addrWord nnn + byteWord (s.getV 0))) := rfl

theorem exec_rnd (x : Reg) (nn : Byte) (s : State) :
    exec (.rnd x nn) s = s.countDraw.writeV x (Config.drawRandom s.draws &&& nn) := rfl

theorem exec_drw (x y : Reg) (n : Fin 16) (s : State) :
    exec (.drw x y n) s = withBytes s (encode (.drw x y n)) s.base n.val
      (((s.setFb (spriteDrawing s x y n).1).setV regVF (flagByte (spriteDrawing s x y n).2)).advance) := rfl

theorem exec_skp (x : Reg) (s : State) :
    exec (.skp x) s = withDigit s (encode (.skp x)) x fun k => s.skipIf (s.keyDown k) := rfl

theorem exec_sknp (x : Reg) (s : State) :
    exec (.sknp x) s = withDigit s (encode (.sknp x)) x fun k => s.skipIf (!s.keyDown k) := rfl

theorem exec_ldVxK (x : Reg) (s : State) : exec (.ldVxK x) s = .next (s.setWait (some x) 0x0000#16).advance := rfl

theorem exec_addIVx (x : Reg) (s : State) : exec (.addIVx x) s = .next (s.setI (s.i + byteWord (s.getV x))).advance := rfl

theorem exec_ldFVx (x : Reg) (s : State) :
    exec (.ldFVx x) s =
      withDigit s (encode (.ldFVx x)) x fun d => (s.setI (BitVec.ofNat 16 (glyphAddr d))).advance := rfl

theorem exec_ldBVx (x : Reg) (s : State) :
    exec (.ldBVx x) s = s.storeBytes (encode (.ldBVx x)) (bcdDigits (s.getV x)) := rfl

theorem exec_ldMemVx (x : Reg) (s : State) :
    exec (.ldMemVx x) s = s.storeBytes (encode (.ldMemVx x)) (s.regsUpTo x) := rfl

theorem exec_ldVxMem (x : Reg) (s : State) :
    exec (.ldVxMem x) s = withBytes s (encode (.ldVxMem x)) s.base (x.val + 1)
      (s.loadRegs (Memory.readBytes s.mem s.base (x.val + 1))).advance := rfl

/-! ### Frames of the state operations -/

theorem KeepsBut.setResultFlag {parts : List Part} (h : .regs ∈ parts) (s : State) (x : Reg) (r f : Byte) :
    KeepsBut parts s (s.setResultFlag x r f) :=
  (KeepsBut.setV h s x r).trans (KeepsBut.setV h _ regVF f)

theorem KeepsBut.setFb {parts : List Part} (h : .fb ∈ parts) (s : State) (f : Framebuffer) :
    KeepsBut parts s (s.setFb f) := by
  intro p hp
  cases p
  case fb => exact absurd h hp
  all_goals simp [Part.same]

theorem KeepsBut.setMem {parts : List Part} (h : .mem ∈ parts) (s : State) (m : Memory) :
    KeepsBut parts s (s.setMem m) := by
  intro p hp
  cases p
  case mem => exact absurd h hp
  all_goals simp [Part.same]

theorem KeepsBut.setWait {parts : List Part} (h : .wait ∈ parts) (s : State) (w : Option Reg) (latch : BitVec 16) :
    KeepsBut parts s (s.setWait w latch) := by
  intro p hp
  cases p
  case wait => exact absurd h hp
  all_goals simp [Part.same]

theorem KeepsBut.setKeyFlag {parts : List Part} (h : .key ∈ parts) (s : State) (k : Fin 16) (down : Bool) :
    KeepsBut parts s (s.setKeyFlag k down) := by
  intro p hp
  cases p
  case key => exact absurd h hp
  all_goals simp [Part.same]

theorem KeepsBut.countDraw {parts : List Part} (h : .draws ∈ parts) (s : State) : KeepsBut parts s s.countDraw := by
  intro p hp
  cases p
  case draws => exact absurd h hp
  all_goals simp [Part.same]

theorem KeepsBut.loadRegs {parts : List Part} (h : .regs ∈ parts) (s : State) (bs : List Byte) :
    KeepsBut parts s (s.loadRegs bs) := by
  intro p hp
  cases p
  case regs => exact absurd h hp
  all_goals simp [Part.same]

/-- A change of the stack, its depth and PC is inside every frame that leaves out the stack. -/
theorem KeepsBut.setStack {parts : List Part} (h : .stack ∈ parts) (s : State) (stack : Vector Word 16) (sp : Fin 17)
    (pc : Word) : KeepsBut parts s { s with stack := stack, sp := sp, pc := pc } := by
  intro p hp
  cases p
  case stack => exact absurd h hp
  all_goals simp [Part.same, State.getV]

theorem RegsBut.setResultFlag (s : State) (x : Reg) (r f : Byte) : RegsBut [x, regVF] s (s.setResultFlag x r f) := by
  intro y hy
  have hne : y ≠ x ∧ y ≠ regVF := by simpa using hy
  rw [State.getV_setResultFlag, if_neg hne.2, if_neg hne.1]

/-! ### The pieces of state an instruction may write -/

/-- The pieces of state an instruction may change, besides PC. -/
def writtenParts : Instr → List Part
  | .cls => [.fb]
  | .ret | .call _ => [.stack]
  | .ldImm _ _ | .addImm _ _ | .ldReg _ _ | .or _ _ | .and _ _ | .xor _ _ | .addReg _ _ | .sub _ _ | .shr _ _
  | .subn _ _ | .shl _ _ | .ldVxDt _ | .ldVxMem _ => [.regs]
  | .rnd _ _ => [.regs, .draws]
  | .drw _ _ _ => [.regs, .fb]
  | .ldI _ | .addIVx _ | .ldFVx _ => [.i]
  | .ldVxK _ => [.wait]
  | .ldDtVx _ => [.dt]
  | .ldStVx _ => [.st]
  | .ldBVx _ | .ldMemVx _ => [.mem]
  | .sys _ | .jp _ | .seImm _ _ | .sneImm _ _ | .seReg _ _ | .sneReg _ _ | .jpV0 _ | .skp _ | .sknp _ => []

/-- An instruction that completes changes no piece of state but those listed for it. -/
theorem exec_keepsBut {i : Instr} {s t : State} (h : exec i s = .next t) : KeepsBut (writtenParts i) s t := by
  cases i
  case sys | jp | seImm | sneImm | seReg | sneReg | jpV0 =>
    obtain rfl := eq_of_next_eq h
    exact KeepsBut.setPc _ s _
  case cls =>
    obtain rfl := eq_of_next_eq h
    exact (KeepsBut.setFb (by simp [writtenParts]) s _).advance
  case call =>
    obtain ⟨_, rfl⟩ := execCall_eq_next h
    exact KeepsBut.setStack (by simp [writtenParts]) s _ _ _
  case ret =>
    obtain ⟨_, _, rfl⟩ := execRet_eq_next h
    exact KeepsBut.setStack (by simp [writtenParts]) s _ _ _
  case ldImm | addImm | ldReg | or | and | xor | ldVxDt =>
    obtain rfl := eq_of_next_eq h
    exact (KeepsBut.setV (by simp [writtenParts]) s _ _).advance
  case addReg | sub | shr | subn | shl =>
    obtain rfl := eq_of_next_eq h
    exact (KeepsBut.setResultFlag (by simp [writtenParts]) s _ _ _).advance
  case rnd =>
    obtain rfl := eq_of_next_eq h
    exact ((KeepsBut.countDraw (by simp [writtenParts]) s).trans
      (KeepsBut.setV (by simp [writtenParts]) _ _ _)).advance
  case drw =>
    obtain ⟨_, rfl⟩ := withBytes_eq_next.1 h
    exact ((KeepsBut.setFb (by simp [writtenParts]) s _).trans (KeepsBut.setV (by simp [writtenParts]) _ _ _)).advance
  case skp | sknp =>
    simp only [exec_skp, exec_sknp, withDigit_eq_next] at h
    obtain ⟨_, rfl⟩ := h
    exact KeepsBut.skipIf _ s _
  case ldI | addIVx =>
    obtain rfl := eq_of_next_eq h
    exact (KeepsBut.setI (by simp [writtenParts]) s _).advance
  case ldFVx =>
    rw [exec_ldFVx, withDigit_eq_next] at h
    obtain ⟨_, rfl⟩ := h
    exact (KeepsBut.setI (by simp [writtenParts]) s _).advance
  case ldVxK =>
    obtain rfl := eq_of_next_eq h
    exact (KeepsBut.setWait (by simp [writtenParts]) s _ _).advance
  case ldDtVx =>
    obtain rfl := eq_of_next_eq h
    exact (KeepsBut.setDt (by simp [writtenParts]) s _).advance
  case ldStVx =>
    obtain rfl := eq_of_next_eq h
    exact (KeepsBut.setSt (by simp [writtenParts]) s _).advance
  case ldBVx | ldMemVx =>
    obtain ⟨_, rfl⟩ := withBytes_eq_next.1 h
    exact (KeepsBut.setMem (by simp [writtenParts]) s _).advance
  case ldVxMem =>
    obtain ⟨_, rfl⟩ := withBytes_eq_next.1 h
    exact (KeepsBut.loadRegs (by simp [writtenParts]) s _).advance

theorem not_mem_writtenParts_of_ne {i : Instr} :
    (i ≠ .cls → (∀ x y n, i ≠ .drw x y n) → .fb ∉ writtenParts i) ∧
    ((∀ x, i ≠ .ldBVx x) → (∀ x, i ≠ .ldMemVx x) → .mem ∉ writtenParts i) ∧
    ((∀ nnn, i ≠ .ldI nnn) → (∀ x, i ≠ .addIVx x) → (∀ x, i ≠ .ldFVx x) → .i ∉ writtenParts i) ∧
    ((∀ nnn, i ≠ .call nnn) → i ≠ .ret → .stack ∉ writtenParts i) ∧
    ((∀ x, i ≠ .ldDtVx x) → .dt ∉ writtenParts i) ∧ ((∀ x, i ≠ .ldStVx x) → .st ∉ writtenParts i) ∧
    ((∀ x, i ≠ .ldVxK x) → .wait ∉ writtenParts i) ∧ .key ∉ writtenParts i := by
  cases i <;> simp [writtenParts]

/-- Settles O20: neither piece is among the written parts of any other instruction. -/
theorem framebufferAndMemoryWriters : Obligations.FramebufferAndMemoryWriters := by
  intro i s t h
  have hkeep := exec_keepsBut h
  obtain ⟨hfb, hmem, -⟩ := not_mem_writtenParts_of_ne (i := i)
  exact ⟨fun hcls hdrw => hkeep .fb (hfb hcls hdrw), fun hbcd hstore => hkeep .mem (hmem hbcd hstore)⟩

/-- Settles O21: none of these pieces is among the written parts of any other instruction. -/
theorem specialRegisterWriters : Obligations.SpecialRegisterWriters := by
  intro i s t h
  have hkeep := exec_keepsBut h
  obtain ⟨-, -, hi, hstack, hdt, hst, hwait, hkey⟩ := not_mem_writtenParts_of_ne (i := i)
  exact ⟨fun h1 h2 h3 => hkeep .i (hi h1 h2 h3), fun h1 h2 => hkeep .stack (hstack h1 h2), fun h1 => hkeep .dt (hdt h1),
    fun h1 => hkeep .st (hst h1), fun h1 => hkeep .wait (hwait h1), hkeep .key hkey⟩

/-! ### The registers an instruction may write -/

/-- The registers above X keep their values when V0 to VX are loaded. -/
theorem RegsBut.loadRegs (s : State) (x : Reg) (bs : List Byte) (hlen : bs.length = x.val + 1) :
    RegsBut ((List.finRange 16).filter fun r => r ≤ x) s (s.loadRegs bs) := by
  intro r hr
  have hx : x < r := by simpa using hr
  have hnot : ¬ r.val < bs.length := by
    have : x.val < r.val := hx
    omega
  rw [State.getV_loadRegs s bs (by omega), if_neg hnot]

/-- An instruction that completes changes no register but those listed for it. -/
theorem exec_regsBut {i : Instr} {s t : State} (h : exec i s = .next t) : RegsBut (writtenRegs i) s t := by
  cases i
  case ldImm | addImm | ldReg | or | and | xor | rnd | ldVxDt =>
    obtain rfl := eq_of_next_eq h
    exact RegsBut.setV _ _ _
  case addReg | sub | shr | subn | shl =>
    obtain rfl := eq_of_next_eq h
    exact RegsBut.setResultFlag s _ _ _
  case drw =>
    obtain ⟨_, rfl⟩ := withBytes_eq_next.1 h
    exact RegsBut.setV (s.setFb _) _ _
  case ldVxMem x =>
    obtain ⟨_, rfl⟩ := withBytes_eq_next.1 h
    exact RegsBut.loadRegs s x _ (Memory.length_readBytes _ _ _)
  all_goals exact fun r _ => exec_keepsBut h .regs (by simp [writtenParts]) r

/-- Settles O22: the instructions that write registers do so by one write, by a write and a flag, or by a row of
loads; the registers of the others are a piece of state outside their written parts. -/
theorem registersChangeOnlyAsListed : Obligations.RegistersChangeOnlyAsListed := fun _ _ _ => exec_regsBut

end Sys2Proof.Machine
end

section
/-! SUPPORT. Where an instruction faults (spec/60_exceptions.md R102, R103), that none is refused, and what the step
and the host's call of it answer (spec/40_execution_cycle.md R54 to R60). -/

namespace Sys2Proof.Machine

/-! ### Faults of the instructions -/

theorem withBytes_eq_fault_iff_lowestBad {s run : State} {w : Word} {base n : Nat} {f : Fault} :
    withBytes s w base n run = .fault f ↔ ∃ a, LowestBad base n a ∧ f = .memoryFault s.pc a (some w) := by
  simp only [withBytes_eq_fault, firstBadAddr_eq_some, LowestBad]

theorem execCall_eq_fault {s : State} {nnn : Addr12} {f : Fault} :
    execCall nnn s = .fault f ↔ s.sp.val = 16 ∧ f = .stackOverflow s.pc (encode (.call nnn)) := by
  rw [← s.push_eq_none (s.pc + 2#16), execCall]
  cases s.push (s.pc + 2#16) <;> simp [raise, eq_comm]

theorem execRet_eq_fault {s : State} {f : Fault} :
    execRet s = .fault f ↔ s.sp.val = 0 ∧ f = .stackUnderflow s.pc (encode .ret) := by
  rw [← s.pop_eq_none, execRet]
  cases s.pop <;> simp [raise, eq_comm]

/-- Settles O12: the faulting instructions fault where their shared operation does, and the meaning of every other
instruction is a next state. -/
theorem instructionFaultsExactlyAsListed : Obligations.InstructionFaultsExactlyAsListed := by
  intro s i f
  cases i
  case call => exact execCall_eq_fault
  case ret => exact execRet_eq_fault
  case skp x => rw [exec_skp, withDigit_eq_fault, FaultCause]
  case sknp x => rw [exec_sknp, withDigit_eq_fault, FaultCause]
  case ldFVx x => rw [exec_ldFVx, withDigit_eq_fault, FaultCause]
  case drw | ldBVx | ldVxMem => exact withBytes_eq_fault_iff_lowestBad
  case ldMemVx x =>
    rw [exec_ldMemVx, State.storeBytes, withBytes_eq_fault_iff_lowestBad, State.length_regsUpTo, FaultCause, State.base_eq]
  all_goals exact ⟨nofun, False.elim⟩

theorem exec_ne_refused (i : Instr) (s : State) (r : Refusal) : exec i s ≠ .refused r := by
  cases i
  case call =>
    rw [exec_call, execCall]
    cases s.push (s.pc + 2#16) <;> simp [raise]
  case ret =>
    rw [exec_ret, execRet]
    cases s.pop <;> simp [raise]
  case drw | ldBVx | ldMemVx | ldVxMem => exact withBytes_ne_refused
  case skp | sknp | ldFVx =>
    simp only [exec_skp, exec_sknp, exec_ldFVx]
    exact withDigit_ne_refused
  all_goals exact nofun

/-! ### The step -/

/-- Settles O11: a step is a step of the wait, a fault of the fetch or the decoder, or an instruction. -/
theorem stepNeverRefuses : Obligations.StepNeverRefuses := by
  intro s r
  obtain ⟨x, -, h⟩ | ⟨-, -, h⟩ | ⟨w, u, -, -, -, h⟩ | ⟨w, i, -, -, -, h⟩ := step_cases s
  case inr.inr.inr => exact h ▸ exec_ne_refused i s r
  all_goals simp [h]

theorem fetchWord_of_window {s : State} (hlo : 0x200 ≤ s.pc.toNat) (hhi : s.pc.toNat + 1 ≤ 0xFFF) :
    s.fetchWord = some (Memory.read s.mem s.pc.toNat ++ Memory.read s.mem (s.pc.toNat + 1)) :=
  State.fetchWord_eq_some.2 ⟨⟨hlo, hhi⟩, rfl⟩

/-- Settles O6: the fetch answers the two bytes at PC, and the step is the meaning of what they decode to. -/
theorem stepRunsDecodedInstruction : Obligations.StepRunsDecodedInstruction := fun _ _ hwait hlo hhi hdec =>
  step_of_instr hwait (fetchWord_of_window hlo hhi) hdec

/-- Settles O7: there is no word to fetch outside the window, and a fault of memory leaves the state as it was. -/
theorem fetchOutsideWindowFaults : Obligations.FetchOutsideWindowFaults := by
  intro s hwait hout
  have hfetch : s.fetchWord = none := State.fetchWord_eq_none.2 (by omega)
  have hstep : step s = .fault (.memoryFault s.pc s.pc.toNat none) := step_of_no_fetch hwait hfetch
  exact ⟨hstep, callStep_of_fault hstep⟩

/-- Settles O8: the fault of an UNKNOWN word is the only one after which PC advances. -/
theorem unknownWordFaultsAndSkips : Obligations.UnknownWordFaultsAndSkips := by
  rintro s w hwait hlo hhi rfl hdec
  have hstep := step_of_unknown hwait (fetchWord_of_window hlo hhi) hdec
  exact ⟨hstep, callStep_of_fault hstep⟩

/-- Every fault but UnknownInstruction leaves the state before the step (R60). -/
theorem State.afterFault_eq_self {s : State} {f : Fault} (h : f.code ≠ 4) : s.afterFault f = s := by
  cases f
  case unknownInstruction => exact absurd rfl h
  all_goals rfl

/-- Settles O10: the state is the one before the step, so the step does the same again. -/
theorem faultingStepKeepsState : Obligations.FaultingStepKeepsState := by
  intro s f hstep hcode
  rw [callStep_of_fault hstep, State.afterFault_eq_self hcode]
  exact ⟨rfl, rfl, hstep⟩

/-- Settles O9: with an empty latch the wait goes on, and otherwise the lowest latched key ends it by one write of the
waiting register and of the wait. -/
theorem stepInWait : Obligations.StepInWait := by
  intro s x hwait
  rw [step_of_wait hwait]
  refine ⟨fun hidle => by rw [stepWait_of_idle hidle], fun hlatch => ?_⟩
  obtain ⟨k, hk⟩ := Option.ne_none_iff_exists'.1 (mt lowestKey_eq_none.1 hlatch)
  obtain ⟨hlt, hset, hlow⟩ := lowestKey_eq_some.1 hk
  rw [stepWait_of_key hk]
  refine ⟨_, rfl, rfl, rfl, rfl, ⟨k, hlt, hset, hlow, ?_⟩, RegsBut.setV s x _, ?_⟩
  · simp
    omega
  · exact (KeepsBut.setV (by simp) s x _).trans (KeepsBut.setWait (by simp) _ _ _)

/-! ### The flags of a step's result -/

theorem isDisplay_iff (i : Instr) : isDisplay i = true ↔ i = .cls ∨ ∃ x y n, i = .drw x y n := by
  cases i <;> simp [isDisplay]

theorem nextInstr_eq_some {s : State} {i : Instr} :
    s.nextInstr = some i ↔ s.wait = none ∧ 0x200 ≤ s.pc.toNat ∧ s.pc.toNat + 1 ≤ 0xFFF ∧
      decode (Memory.read s.mem s.pc.toNat ++ Memory.read s.mem (s.pc.toNat + 1)) = .instr i := by
  rw [← and_assoc (a := 0x200 ≤ _)]
  unfold State.nextInstr
  cases hwait : s.wait with
  | some x => simp
  | none =>
    cases hfetch : s.fetchWord with
    | none =>
      have hout := State.fetchWord_eq_none.1 hfetch
      simp only [hout, false_and, and_false, reduceCtorEq]
    | some w =>
      obtain ⟨hin, rfl⟩ := State.fetchWord_eq_some.1 hfetch
      rw [← Memory.readWord_eq]
      simp only [hin, true_and]
      cases decode (Memory.readWord s.mem s.pc.toNat) <;> simp

theorem nextInstr_any_isDisplay (s : State) :
    s.nextInstr.any isDisplay = true ↔ s.nextInstr = some .cls ∨ ∃ x y n, s.nextInstr = some (.drw x y n) := by
  cases s.nextInstr <;> simp [isDisplay_iff]

/-- Settles O13: `display_changed` asks whether the next instruction is CLS or DRW, and there is one exactly outside a
wait, in the fetch window, at a word that decodes to it. -/
theorem stepResultFlags : Obligations.StepResultFlags := by
  constructor
  · intro s t hstep
    refine ⟨_, callStep_of_next hstep, ?_⟩
    simp only [nextInstr_any_isDisplay, nextInstr_eq_some, exists_and_left, ← and_or_left]
  · intro s f hstep
    rw [callStep_of_fault hstep]
    rfl

end Sys2Proof.Machine
end

section
/-! SUPPORT. The canonical form of memory (notes/assumptions/2.md): a write keeps it, and it is unique. -/

namespace Sys2Proof.Machine

theorem Memory.wfFrom_cons {lo a : Nat} {x : Byte} {rest : Memory} :
    Memory.wfFrom lo ((a, x) :: rest) = true ↔
      lo ≤ a ∧ a ≤ 0xFFF ∧ x ≠ Memory.resetByte a ∧ Memory.wfFrom (a + 1) rest = true := by
  simp [Memory.wfFrom, and_assoc]

/-- The first address a canonical memory lists tells it from one that starts above that address. -/
theorem Memory.exists_read_ne {m rest : Memory} {lo a : Nat} {x : Byte} (hx : x ≠ Memory.resetByte a)
    (hm : Memory.wfFrom lo m = true) (ha : a < lo) : Memory.read ((a, x) :: rest) a ≠ Memory.read m a := by
  rw [Memory.read_of_lt hm ha]
  simpa [Memory.read] using hx

/-- Two canonical memories that read alike everywhere list the same cells: their first addresses agree, the bytes
there agree, and the rest again reads alike. -/
theorem Memory.eq_of_read_eq {m m' : Memory} {lo : Nat} (hm : Memory.wfFrom lo m = true)
    (hm' : Memory.wfFrom lo m' = true) (h : ∀ a, Memory.read m a = Memory.read m' a) : m = m' := by
  induction m generalizing m' lo with
  | nil =>
    cases m' with
    | nil => rfl
    | cons c' rest' =>
      obtain ⟨b, y⟩ := c'
      obtain ⟨-, -, hy, -⟩ := Memory.wfFrom_cons.1 hm'
      exact absurd (h b).symm (Memory.exists_read_ne (lo := b + 1) hy rfl (Nat.lt_succ_self b))
  | cons c rest ih =>
    obtain ⟨a, x⟩ := c
    obtain ⟨-, -, hx, hrest⟩ := Memory.wfFrom_cons.1 hm
    cases m' with
    | nil => exact absurd (h a) (Memory.exists_read_ne (lo := a + 1) hx rfl (Nat.lt_succ_self a))
    | cons c' rest' =>
      obtain ⟨b, y⟩ := c'
      obtain ⟨-, hb, hy, hrest'⟩ := Memory.wfFrom_cons.1 hm'
      rcases Nat.lt_trichotomy a b with hlt | rfl | hlt
      · have hstart : Memory.wfFrom b ((b, y) :: rest') = true := Memory.wfFrom_cons.2 ⟨le_rfl, hb, hy, hrest'⟩
        exact absurd (h a) (Memory.exists_read_ne hx hstart hlt)
      · have hxy : x = y := by simpa [Memory.read] using h a
        have htail : ∀ c, Memory.read rest c = Memory.read rest' c := by
          intro c
          by_cases hc : c = a
          · rw [Memory.read_of_lt hrest (by omega), Memory.read_of_lt hrest' (by omega)]
          · simpa [Memory.read, hc] using h c
        rw [hxy, ih hrest hrest' htail]
      · obtain ⟨-, ha, -, -⟩ := Memory.wfFrom_cons.1 hm
        have hstart : Memory.wfFrom a ((a, x) :: rest) = true := Memory.wfFrom_cons.2 ⟨le_rfl, ha, hx, hrest⟩
        exact absurd (h b).symm (Memory.exists_read_ne hy hstart hlt)

/-- Settles O17: the law of a read after a write, at the lower bound 0 of a canonical memory. -/
theorem readAfterWrite : Obligations.ReadAfterWrite := fun _ a b x hm => Memory.read_write_from hm a b x

/-- Settles O18: a write keeps the form from the bound 0 on, and canonical memories are told apart by reading. -/
theorem memoryFormIsCanonical : Obligations.MemoryFormIsCanonical :=
  ⟨fun _ a x hm ha => Memory.wfFrom_write hm (Nat.zero_le a) ha x, fun _ _ hm hm' h => Memory.eq_of_read_eq hm hm' h⟩

end Sys2Proof.Machine
end

section
/-! SUPPORT. How each instruction sets PC (spec/40_execution_cycle.md R58). -/

namespace Sys2Proof.Machine

theorem State.advance_pc_toNat {s : State} (h : s.pc.toNat ≤ 0xFFE) : s.advance.pc.toNat = s.pc.toNat + 2 := by
  rw [State.advance_pc]
  bv_omega

theorem State.skipIf_pc_toNat {s : State} (h : s.pc.toNat ≤ 0xFFE) (c : Bool) :
    (s.skipIf c).pc.toNat = s.pc.toNat + if c = true then 4 else 2 := by
  rw [State.skipIf_pc]
  cases c <;> simp only [if_true, if_false, reduceCtorEq] <;> bv_omega

theorem addrWord_add_byteWord_toNat (nnn : Addr12) (b : Byte) :
    (addrWord nnn + byteWord b).toNat = nnn.toNat + b.toNat := by
  have := nnn.isLt
  have := b.isLt
  rw [BitVec.toNat_add, addrWord_toNat, byteWord, BitVec.toNat_setWidth_of_le (by decide)]
  omega

theorem State.getD_key_eq_keyDown (s : State) {v : Nat} (h : v < 16) :
    s.key.toList.getD v false = s.keyDown ⟨v, h⟩ := by
  simp [State.keyDown, List.getD, h]

/-- Settles O23: the jumps, CALL and RET set PC, a skip adds 4 or 2, and every other instruction advances PC by 2. -/
theorem nextPcOfEveryInstruction : Obligations.NextPcOfEveryInstruction := by
  intro i s t hpc h
  cases i
  case ret =>
    obtain ⟨hlt, _, rfl⟩ := execRet_eq_next h
    exact ⟨hlt, rfl⟩
  case call =>
    obtain ⟨_, rfl⟩ := execCall_eq_next h
    exact addrWord_toNat _
  case jp =>
    obtain rfl := eq_of_next_eq h
    exact addrWord_toNat _
  case jpV0 =>
    obtain rfl := eq_of_next_eq h
    exact addrWord_add_byteWord_toNat _ _
  case seImm | sneImm | seReg | sneReg =>
    obtain rfl := eq_of_next_eq h
    exact (State.skipIf_pc_toNat hpc _).trans (by simp)
  case skp | sknp =>
    simp only [exec_skp, exec_sknp, withDigit_eq_next] at h
    obtain ⟨hlt, rfl⟩ := h
    exact (State.skipIf_pc_toNat hpc _).trans (by simp only [State.getD_key_eq_keyDown s hlt, Bool.not_eq_true'])
  case ldFVx =>
    rw [exec_ldFVx, withDigit_eq_next] at h
    obtain ⟨_, rfl⟩ := h
    exact State.advance_pc_toNat hpc
  case drw | ldBVx | ldMemVx | ldVxMem =>
    obtain ⟨_, rfl⟩ := withBytes_eq_next.1 h
    simpa [nextPc] using State.advance_pc_toNat hpc
  all_goals
    obtain rfl := eq_of_next_eq h
    exact State.advance_pc_toNat hpc

end Sys2Proof.Machine
end

section
/-! SUPPORT. The invariant (`Inv`) is kept by every instruction, every step and every operation of the host. -/

namespace Sys2Proof.Machine

/-- The bytes that an instruction stores all have addresses, or it answers no next state. -/
theorem State.storeBytes_eq_next {s t : State} {w : Word} {bs : List Byte} :
    s.storeBytes w bs = .next t ↔ (bs = [] ∨ s.i.toNat + bs.length ≤ 4096) ∧
      t = (s.setMem (Memory.writeBytes s.mem s.i.toNat bs)).advance := by
  have hfit : bs.length = 0 ∨ s.i.toNat + (bs.length - 1) ≤ 0xFFF ↔ bs = [] ∨ s.i.toNat + bs.length ≤ 4096 := by
    rw [← List.length_eq_zero_iff]
    omega
  rw [State.storeBytes, withBytes_eq_next, State.base_eq, hfit]

/-- Only FX33 and FX55 touch the list that memory is held in. -/
theorem exec_mem_eq {i : Instr} {s t : State} (hbcd : ∀ x, i ≠ .ldBVx x) (hstore : ∀ x, i ≠ .ldMemVx x)
    (h : exec i s = .next t) : t.mem = s.mem := by
  cases i
  case ldBVx x => exact absurd rfl (hbcd x)
  case ldMemVx x => exact absurd rfl (hstore x)
  case call =>
    obtain ⟨_, rfl⟩ := execCall_eq_next h
    rfl
  case ret =>
    obtain ⟨_, _, rfl⟩ := execRet_eq_next h
    rfl
  case skp | sknp | ldFVx =>
    simp only [exec_skp, exec_sknp, exec_ldFVx, withDigit_eq_next] at h
    obtain ⟨_, rfl⟩ := h
    rfl
  case drw =>
    obtain ⟨_, rfl⟩ := withBytes_eq_next.1 h
    rfl
  case ldVxMem =>
    obtain ⟨_, rfl⟩ := withBytes_eq_next.1 h
    exact State.loadRegs_mem s _
  all_goals
    obtain rfl := eq_of_next_eq h
    rfl

theorem storeBytes_wf {s t : State} {w : Word} {bs : List Byte} (hm : Memory.wf s.mem = true)
    (h : s.storeBytes w bs = .next t) : Memory.wf t.mem = true := by
  obtain ⟨hfit, rfl⟩ := State.storeBytes_eq_next.1 h
  exact Memory.wf_writeBytes hm hfit

theorem exec_wf {i : Instr} {s t : State} (hm : Memory.wf s.mem = true) (h : exec i s = .next t) :
    Memory.wf t.mem = true := by
  by_cases hbcd : ∃ x, i = .ldBVx x
  · obtain ⟨x, rfl⟩ := hbcd
    exact storeBytes_wf hm h
  by_cases hstore : ∃ x, i = .ldMemVx x
  · obtain ⟨x, rfl⟩ := hstore
    exact storeBytes_wf hm h
  rw [exec_mem_eq (not_exists.1 hbcd) (not_exists.1 hstore) h]
  exact hm

/-- No instruction sets PC above 0xFFF + 0xFF, if every return address is below that. -/
theorem nextPc_le {i : Instr} {s : State} {p : Nat} (hpc : s.pc.toNat ≤ 0xFFE)
    (hstack : ∀ k : Fin 16, (s.stack[k.val]).toNat ≤ 0x1000) (h : nextPc s i p) : p ≤ 0x10FE := by
  cases i
  case ret =>
    obtain ⟨hlt, rfl⟩ := h
    have := hstack ⟨s.sp.val - 1, hlt⟩
    exact le_trans this (by decide)
  case jp nnn | call nnn =>
    have := nnn.isLt
    simp only [nextPc] at h
    omega
  case jpV0 nnn =>
    have := nnn.isLt
    have := (s.getV 0).isLt
    simp only [nextPc] at h
    omega
  case seImm | sneImm | seReg | sneReg | skp | sknp =>
    simp only [nextPc] at h
    split at h <;> omega
  all_goals
    simp only [nextPc] at h
    omega

/-- CALL pushes PC + 2, and no other instruction changes an entry of the stack. -/
theorem exec_stackBound {i : Instr} {s t : State} (hpc : s.pc.toNat ≤ 0xFFE)
    (hstack : ∀ k : Fin 16, (s.stack[k.val]).toNat ≤ 0x1000) (h : exec i s = .next t) (k : Fin 16) :
    (t.stack[k.val]).toNat ≤ 0x1000 := by
  cases i
  case call =>
    obtain ⟨_, rfl⟩ := execCall_eq_next h
    simp only [Vector.getElem_set]
    split
    · bv_omega
    · exact hstack k
  case ret =>
    obtain ⟨_, _, rfl⟩ := execRet_eq_next h
    exact hstack k
  all_goals
    have hkeep : t.sp = s.sp ∧ t.stack = s.stack := exec_keepsBut h .stack (by simp [writtenParts])
    simpa only [hkeep.2] using hstack k

/-- FX0A begins a wait, and no other instruction changes the wait or the latch. -/
theorem exec_latchIdle {i : Instr} {s t : State} (hidle : s.wait = none → s.waitLatch = 0#16)
    (h : exec i s = .next t) (hwait : t.wait = none) : t.waitLatch = 0#16 := by
  by_cases hk : ∃ x, i = .ldVxK x
  · obtain ⟨x, rfl⟩ := hk
    obtain rfl := eq_of_next_eq h
    cases hwait
  · obtain ⟨-, -, -, -, -, -, hnot, -⟩ := not_mem_writtenParts_of_ne (i := i)
    obtain ⟨hw, hl⟩ := exec_keepsBut h .wait (hnot (not_exists.1 hk))
    rw [hl, hidle (hw ▸ hwait)]

theorem Inv.exec {i : Instr} {s t : State} (hs : Inv s) (hpc : s.pc.toNat ≤ 0xFFE) (h : exec i s = .next t) : Inv t where
  memWf := exec_wf hs.memWf h
  pcBound := nextPc_le hpc hs.stackBound (nextPcOfEveryInstruction i s t hpc h)
  stackBound := exec_stackBound hpc hs.stackBound h
  latchIdle := exec_latchIdle hs.latchIdle h

theorem Inv.stepWait {x : Reg} {s : State} (hs : Inv s) : Inv (stepWait x s) := by
  cases hk : lowestKey s.waitLatch with
  | none => rwa [stepWait_of_idle (lowestKey_eq_none.1 hk)]
  | some k =>
    rw [stepWait_of_key hk]
    exact ⟨hs.memWf, hs.pcBound, hs.stackBound, fun _ => rfl⟩

/-- Settles O15: a step of the wait keeps PC, the stack and memory, and an instruction runs from a PC in the fetch
window, from which none leaves the bounds. -/
theorem stepKeepsInvariant : Obligations.StepKeepsInvariant := by
  intro s t hs h
  obtain ⟨x, -, hstep⟩ | ⟨-, -, hstep⟩ | ⟨w, u, -, -, -, hstep⟩ | ⟨w, i, -, hfetch, -, hstep⟩ := step_cases s
  · rw [hstep] at h
    obtain rfl := eq_of_next_eq h
    exact hs.stepWait
  · simp [hstep] at h
  · simp [hstep] at h
  · obtain ⟨⟨_, hhi⟩, -⟩ := State.fetchWord_eq_some.1 hfetch
    exact hs.exec (by omega) (hstep ▸ h)

/-! ### The host's operations -/

/-- Settles O14: after reset memory lists nothing, the stack is cleared and no key is latched. -/
theorem resetMeetsInvariant : Obligations.ResetMeetsInvariant where
  memWf := rfl
  pcBound := by decide
  stackBound := fun k => by simp [State.reset]
  latchIdle := fun _ => rfl

theorem Inv.advance {s : State} (hs : Inv s) (hpc : s.pc.toNat ≤ 0xFFE) : Inv s.advance where
  memWf := hs.memWf
  pcBound := by
    rw [State.advance_pc_toNat hpc]
    omega
  stackBound := hs.stackBound
  latchIdle := hs.latchIdle

/-- A faulting step leaves the state itself, or advances it from a PC that a word was fetched at. -/
theorem Inv.afterFault {s : State} {f : Fault} (hs : Inv s) (h : Machine.step s = .fault f) : Inv (s.afterFault f) := by
  by_cases hcode : f.code = 4
  case neg => rwa [State.afterFault_eq_self hcode]
  have hpc : s.pc.toNat ≤ 0xFFE := by
    obtain ⟨x, -, hstep⟩ | ⟨-, -, hstep⟩ | ⟨w, u, -, hfetch, -, -⟩ | ⟨w, i, -, hfetch, -, -⟩ := step_cases s
    · simp [hstep] at h
    · rw [hstep] at h
      cases h
      exact absurd hcode (by simp [Fault.code])
    all_goals
      obtain ⟨⟨_, hhi⟩, -⟩ := State.fetchWord_eq_some.1 hfetch
      omega
  cases f
  case unknownInstruction => exact hs.advance hpc
  all_goals exact hs

theorem Inv.callStep {s : State} (hs : Inv s) : Inv (Machine.callStep s).1 := by
  cases h : Machine.step s with
  | next t => exact callStep_of_next h ▸ stepKeepsInvariant s t hs h
  | fault f => exact callStep_of_fault h ▸ hs.afterFault h
  | refused r => exact absurd h (stepNeverRefuses s r)

/-- The latch after `set_key(k, p)`: a press that turns an up key down during a wait adds its bit (R112). -/
def State.pressLatch (s : State) (k : Fin 16) (p : Bool) : BitVec 16 :=
  if p && !s.keyDown k && s.wait.isSome then s.waitLatch ||| (1#16 <<< k.val) else s.waitLatch

/-- `set_key(k, p)` is one write of the latch and one of the key's flag. -/
theorem setKey_eq (k : Fin 16) (p : Bool) (s : State) :
    setKey k p s = (s.setWait s.wait (s.pressLatch k p)).setKeyFlag k p := by
  unfold setKey State.pressLatch
  split <;> rfl

theorem State.pressLatch_of_wait_none {s : State} (k : Fin 16) (p : Bool) (h : s.wait = none) :
    s.pressLatch k p = s.waitLatch := by
  simp [State.pressLatch, h]

theorem Inv.setKey {s : State} (hs : Inv s) (k : Fin 16) (p : Bool) : Inv (Machine.setKey k p s) := by
  rw [setKey_eq]
  refine ⟨hs.memWf, hs.pcBound, hs.stackBound, fun (hwait : s.wait = none) => ?_⟩
  rw [State.setKeyFlag_waitLatch, State.setWait_waitLatch, State.pressLatch_of_wait_none k p hwait, hs.latchIdle hwait]

theorem load_eq_some {bytes : List Byte} {origin : Nat} {s t : State} :
    load bytes origin s = some t ↔ origin + bytes.length ≤ 4096 ∧ t = s.setMem (Memory.writeBytes s.mem origin bytes) := by
  simp only [load, Config.memSize]
  split
  · simp only [reduceCtorEq, false_iff, not_and]
    omega
  · rw [Option.some.injEq, eq_comm, and_iff_right (by omega)]

theorem Inv.load {s : State} (hs : Inv s) (bytes : List Byte) (origin : Nat) :
    Inv ((Machine.load bytes origin s).getD s) := by
  cases h : Machine.load bytes origin s with
  | none => exact hs
  | some t =>
    obtain ⟨hfit, rfl⟩ := load_eq_some.1 h
    exact ⟨Memory.wf_writeBytes hs.memWf (.inr hfit), hs.pcBound, hs.stackBound, hs.latchIdle⟩

theorem Inv.apply (op : HostOp) (s : State) (hs : Inv s) : Inv (op.apply s) := by
  cases op with
  | step => exact hs.callStep
  | tick => exact ⟨hs.memWf, hs.pcBound, hs.stackBound, hs.latchIdle⟩
  | setKey k p => exact hs.setKey k p
  | load bytes origin => exact hs.load bytes origin
  | reset =>
    obtain ⟨hmem, hpc, hstack, hlatch⟩ := resetMeetsInvariant
    exact ⟨hmem, hpc, hstack, hlatch⟩

/-- Settles O16: every operation of a schedule keeps the invariant, so the schedule does. -/
theorem scheduleKeepsInvariant : Obligations.ScheduleKeepsInvariant := fun ops s => runOps_induct Inv.apply ops s

end Sys2Proof.Machine
end

section
/-! SUPPORT. Zeroed memory is a run of SYS up to the end of memory (spec/42_control_flow.md R68). -/

namespace Sys2Proof.Machine

/-- On a zero word in the fetch window the step is SYS. -/
theorem step_of_zero_word {s : State} (hwait : s.wait = none) (hlo : 0x200 ≤ s.pc.toNat) (hhi : s.pc.toNat + 1 ≤ 0xFFF)
    (h0 : Memory.read s.mem s.pc.toNat = 0x00#8) (h1 : Memory.read s.mem (s.pc.toNat + 1) = 0x00#8) :
    step s = .next s.advance := by
  have hdec : decode (Memory.read s.mem s.pc.toNat ++ Memory.read s.mem (s.pc.toNat + 1)) = .instr (.sys 0) := by
    rw [h0, h1]
    decide
  rw [stepRunsDecodedInstruction s _ hwait hlo hhi hdec, exec_sys]

theorem HostOp.apply_step_of_next {s t : State} (h : Machine.step s = .next t) : HostOp.step.apply s = t :=
  congrArg Prod.fst (callStep_of_next h)

/-- Settles O35: each step up to 0x1000 runs SYS, which advances PC and keeps the zeroed memory; at 0x1000 there is no
word to fetch. -/
theorem zeroedMemoryRunsToFetchFault : Obligations.ZeroedMemoryRunsToFetchFault := by
  intro s n
  induction n generalizing s with
  | zero =>
    intro hwait _ hend _
    have hpc : s.pc = 0x1000#16 := BitVec.eq_of_toNat_eq (by simpa using hend)
    refine ⟨trivial, ?_, ?_⟩
    · rw [← hpc]
      rfl
    · have hfault := (fetchOutsideWindowFaults s hwait (.inr (by omega))).1
      rwa [hpc] at hfault
  | succ n ih =>
    intro hwait hlo hend hzero
    have hpc : s.advance.pc.toNat = s.pc.toNat + 2 := State.advance_pc_toNat (by omega)
    have hstep : step s = .next s.advance :=
      step_of_zero_word hwait hlo (by omega) (hzero _ (by omega) (by omega)) (hzero _ (by omega) (by omega))
    obtain ⟨hsafe, hrun, hfault⟩ :=
      ih s.advance hwait (by omega) (by omega) fun a hge hle => hzero a (by omega) hle
    rw [List.replicate_succ, runOps_cons, HostOp.apply_step_of_next hstep]
    refine ⟨⟨fun _ f => by simp [hstep], ?_⟩, hrun, hfault⟩
    rwa [HostOp.apply_step_of_next hstep]

end Sys2Proof.Machine
end

section
/-! SUPPORT. Two runs side by side that differ in ST or in the key flags (spec/10_state.md R25, R28): an instruction that
does not read the piece carries the difference along. -/

namespace Sys2Proof.Machine

/-- The state with ST and the key flags changed, which only FX18, EX9E and EXA1 can tell. -/
def State.retouch (g : Byte → Byte) (h : Vector Bool 16 → Vector Bool 16) (s : State) : State :=
  { s with st := g s.st, key := h s.key }

section
variable (g : Byte → Byte) (h : Vector Bool 16 → Vector Bool 16) (s : State)

@[simp] theorem State.retouch_pc : (s.retouch g h).pc = s.pc := rfl

theorem State.push_retouch (w : Word) : (s.retouch g h).push w = (s.push w).map (State.retouch g h) := by
  by_cases hlt : s.sp.val < 16
  · rw [State.push_of_lt s w hlt]
    exact State.push_of_lt (s.retouch g h) w hlt
  · have hfull : s.sp.val = 16 := by omega
    rw [(State.push_eq_none s w).2 hfull]
    exact (State.push_eq_none (s.retouch g h) w).2 hfull

theorem State.pop_retouch : (s.retouch g h).pop = s.pop.map fun p => (p.1, p.2.retouch g h) := by
  by_cases hpos : 0 < s.sp.val
  · have hlt : s.sp.val - 1 < 16 := by omega
    rw [State.pop_of_pos s hpos hlt]
    exact State.pop_of_pos (s.retouch g h) hpos hlt
  · have hempty : s.sp.val = 0 := by omega
    rw [(State.pop_eq_none s).2 hempty]
    exact (State.pop_eq_none (s.retouch g h)).2 hempty

theorem State.loadRegs_retouch (bs : List Byte) : (s.retouch g h).loadRegs bs = (s.loadRegs bs).retouch g h :=
  List.foldl_hom (State.retouch g h) fun _ _ => rfl

theorem withBytes_retouch {run run' : State} (hrun : run' = run.retouch g h) (w : Word) (base n : Nat) :
    withBytes (s.retouch g h) w base n run' = mapNext (State.retouch g h) (withBytes s w base n run) := by
  subst hrun
  unfold withBytes
  cases firstBadAddr base n <;> rfl

theorem withDigit_retouch {run run' : Fin 16 → State} (hrun : ∀ k, run' k = (run k).retouch g h) (w : Word) (x : Reg) :
    withDigit (s.retouch g h) w x run' = mapNext (State.retouch g h) (withDigit s w x run) := by
  by_cases hx : (s.getV x).toNat < 16
  · rw [withDigit_of_lt hx, mapNext, ← hrun]
    exact withDigit_of_lt (s := s.retouch g h) hx
  · rw [show withDigit s w x run = raise _ from dif_neg hx]
    exact dif_neg hx

end

/-- FX18 alone can tell ST and the key skips alone the key flags, so every other instruction does the same from the
retouched state. -/
theorem exec_retouch {g : Byte → Byte} {h : Vector Bool 16 → Vector Bool 16} (i : Instr) (s : State)
    (hst : (∀ x, i ≠ .ldStVx x) ∨ g = id) (hkey : ((∀ x, i ≠ .skp x) ∧ ∀ x, i ≠ .sknp x) ∨ h = id) :
    exec i (s.retouch g h) = mapNext (State.retouch g h) (exec i s) := by
  cases i
  case ldStVx x =>
    obtain rfl := hst.resolve_left fun hne => hne x rfl
    rfl
  case skp x =>
    obtain rfl := hkey.resolve_left fun hne => hne.1 x rfl
    rw [exec_skp, exec_skp]
    exact withDigit_retouch g id s (fun _ => by rfl) _ x
  case sknp x =>
    obtain rfl := hkey.resolve_left fun hne => hne.2 x rfl
    rw [exec_sknp, exec_sknp]
    exact withDigit_retouch g id s (fun _ => by rfl) _ x
  case ldFVx x =>
    rw [exec_ldFVx, exec_ldFVx]
    exact withDigit_retouch g h s (fun _ => by rfl) _ x
  case call nnn =>
    rw [exec_call, exec_call, execCall, execCall, State.retouch_pc, State.push_retouch]
    cases s.push (s.pc + 2#16) <;> rfl
  case ret =>
    rw [exec_ret, exec_ret, execRet, execRet, State.pop_retouch]
    cases s.pop <;> rfl
  case drw =>
    rw [exec_drw, exec_drw]
    exact withBytes_retouch g h s (by rfl) _ _ _
  case ldBVx | ldMemVx =>
    simp only [exec_ldBVx, exec_ldMemVx, State.storeBytes]
    exact withBytes_retouch g h s (by rfl) _ _ _
  case ldVxMem x =>
    rw [exec_ldVxMem, exec_ldVxMem, State.loadRegs_retouch]
    exact withBytes_retouch g h s (by rfl) _ _ _
  all_goals rfl

/-- Settles O24: another value of ST is a retouching that leaves the keys alone; FX18 overwrites it. -/
theorem noInstructionReadsSoundTimer : Obligations.NoInstructionReadsSoundTimer := by
  intro i s b
  refine ⟨fun hne => exec_retouch (g := fun _ => b) (h := id) i s (.inl hne) (.inr rfl), ?_⟩
  rintro x rfl
  rfl

/-- Settles O25: other key flags are a retouching that leaves ST alone. -/
theorem onlyKeySkipsReadKeys : Obligations.OnlyKeySkipsReadKeys := fun i s keys hskp hsknp =>
  exec_retouch (g := id) (h := fun _ => keys) i s (.inr rfl) (.inl ⟨hskp, hsknp⟩)

end Sys2Proof.Machine
end

section
/-! SUPPORT. Reset (spec/70_reset_and_hazards.md R118) and CLS (spec/41_display.md R62). -/

namespace Sys2Proof.Machine

/-- Memory after reset: the 80 bytes of the font, and zeros after them (R32, R33). -/
theorem Memory.resetByte_eq (a : Nat) : Memory.resetByte a = if a < 80 then fontBytes.getD a 0x00#8 else 0x00#8 := by
  have hlen : fontBytes.length = 80 := rfl
  rw [Memory.resetByte, fontBase, if_pos (Nat.zero_le a), Nat.sub_zero]
  split
  · rfl
  · exact List.getD_eq_default _ _ (by omega)

/-- Settles O19: the call of reset answers the reset state but for the count of draws, and that state's fields are
written out. -/
theorem resetValues : Obligations.ResetValues := by
  intro s
  refine ⟨_, rfl, fun x => ?v, rfl, rfl, rfl, fun k => ?stack, rfl, rfl, fun a _ => Memory.resetByte_eq a,
    fun x y => ?fb, fun k => ?key, rfl, rfl, rfl⟩
  case fb => exact Framebuffer.pixel_clear x y
  all_goals simp [HostOp.apply, resetCall, State.reset, State.getV]

/-- Settles O26: CLS is one write of the framebuffer by the clear one, and it is one of the two display instructions. -/
theorem clsClearsDisplay : Obligations.ClsClearsDisplay := by
  constructor
  · intro s
    exact ⟨_, exec_cls s, Framebuffer.pixel_clear, rfl, exec_keepsBut (exec_cls s)⟩
  · intro s hnext
    obtain ⟨hwait, hlo, hhi, hdec⟩ := nextInstr_eq_some.1 hnext
    have hstep := (stepRunsDecodedInstruction s _ hwait hlo hhi hdec).trans (exec_cls s)
    rw [callStep_of_next hstep, hnext]
    rfl

end Sys2Proof.Machine
end

section
/-! SUPPORT. The jumps, the register skips, and calls with their returns (spec/42_control_flow.md R68 to R76). -/

namespace Sys2Proof.Machine

/-- Settles O29: SYS is the default advance. -/
theorem sysOnlyAdvancesPc : Obligations.SysOnlyAdvancesPc := fun s nnn =>
  ⟨_, exec_sys nnn s, rfl, exec_keepsBut (exec_sys nnn s)⟩

/-- Settles O30: JP is one write of PC, and the next fetch looks at the PC it wrote. -/
theorem jpSetsPc : Obligations.JpSetsPc := by
  intro s nnn
  have hpc : (s.setPc (addrWord nnn)).pc.toNat = nnn.toNat := addrWord_toNat nnn
  refine ⟨_, exec_jp nnn s, hpc, exec_keepsBut (exec_jp nnn s), fun hwait hout => ?_⟩
  rw [(fetchOutsideWindowFaults (s.setPc (addrWord nnn)) hwait (by omega)).1, hpc]

/-- Settles O36: BNNN is one write of PC by a sum that does not reach 16 bits. -/
theorem jpV0AddsV0 : Obligations.JpV0AddsV0 := fun s nnn =>
  ⟨_, exec_jpV0 nnn s, addrWord_add_byteWord_toNat nnn _, exec_keepsBut (exec_jpV0 nnn s)⟩

/-- Settles O38: both instructions are one `skipIf`, whose condition picks the length added to PC. -/
theorem skipsOnRegisters : Obligations.SkipsOnRegisters := by
  intro s x y
  constructor
  · refine ⟨_, exec_seReg x y s, ?_, exec_keepsBut (exec_seReg x y s)⟩
    simp only [State.skipIf_pc_eq_add, beq_iff_eq]
  · refine ⟨_, exec_sneReg x y s, ?_, exec_keepsBut (exec_sneReg x y s)⟩
    simp only [State.skipIf_pc_eq_add, bne_iff_ne, ite_not]

/-! ### Calls and returns -/

/-- Settles O31: with a free entry CALL pushes one entry and sets PC. -/
theorem callPushesReturnAddress : Obligations.CallPushesReturnAddress := by
  intro s nnn hlt
  have hexec := (exec_call nnn s).trans (execCall_of_lt s nnn hlt)
  refine ⟨_, hexec, ?_, ?_, rfl, addrWord_toNat nnn, exec_keepsBut hexec⟩
  · exact Vector.getElem_set_self _
  · intro k hk
    exact Vector.getElem_set_ne hlt k.isLt hk.symm

/-- Settles O33: RET reads the entry below SP, which after a CALL is the one that the CALL wrote. -/
theorem retPopsReturnAddress : Obligations.RetPopsReturnAddress := by
  refine ⟨?_, ?_, ?_⟩
  · intro s hpos hlt
    have hexec := (exec_ret s).trans (execRet_of_pos s hpos hlt)
    exact ⟨_, hexec, rfl, rfl, rfl, exec_keepsBut hexec⟩
  · intro s hzero
    exact ⟨execRet_eq_fault.2 ⟨hzero, rfl⟩, rfl⟩
  · intro s t u nnn hcall hsp hstack
    obtain ⟨hlt, rfl⟩ := execCall_eq_next hcall
    have hu : u.sp.val = s.sp.val + 1 := congrArg Fin.val hsp
    have hidx : u.sp.val - 1 = s.sp.val := by omega
    refine ⟨_, execRet_of_pos u (by omega) (by omega), ?_, Fin.ext hidx⟩
    simp only [hidx, hstack, Vector.getElem_set_self]

theorem execSeq_cons_of_next {i : Instr} {is : List Instr} {s t : State} (h : exec i s = .next t) :
    execSeq (i :: is) s = execSeq is t := by
  rw [execSeq, h]

theorem execSeq_append_of_next {is js : List Instr} {s t : State} (h : execSeq is s = .next t) :
    execSeq (is ++ js) s = execSeq js t := by
  induction is generalizing s with
  | nil => rw [eq_of_next_eq h, List.nil_append]
  | cons i is ih =>
    cases hi : exec i s with
    | next u =>
      rw [execSeq_cons_of_next hi] at h
      rw [List.cons_append, execSeq_cons_of_next hi, ih h]
    | fault f => simp [execSeq, hi] at h
    | refused r => simp [execSeq, hi] at h

/-- Any calls that fit the stack complete, each one entry deeper. -/
theorem execSeq_calls (targets : List Addr12) (s : State) (h : s.sp.val + targets.length ≤ 16) :
    ∃ t, execSeq (targets.map .call) s = .next t ∧ t.sp.val = s.sp.val + targets.length := by
  induction targets generalizing s with
  | nil => exact ⟨s, rfl, rfl⟩
  | cons nnn targets ih =>
    rw [List.length_cons] at h
    obtain ⟨t, hcall, -, -, hsp, -⟩ := callPushesReturnAddress s nnn (by omega)
    obtain ⟨u, hrun, hu⟩ := ih t (by omega)
    refine ⟨u, (execSeq_cons_of_next hcall).trans hrun, ?_⟩
    rw [hu, hsp, List.length_cons]
    omega

/-- Settles O32: sixteen calls fit an empty stack and fill it. -/
theorem seventeenthNestedCallOverflows : Obligations.SeventeenthNestedCallOverflows := by
  intro s targets hsp hlen
  obtain ⟨t, hrun, ht⟩ := execSeq_calls targets s (by omega)
  have hfull : t.sp.val = 16 := by omega
  exact ⟨t, hrun, hfull, fun nnn => execCall_eq_fault.2 ⟨hfull, rfl⟩⟩

/-- A nest of calls and returns, the empty one included: each call's own return is the last of the returns after it,
and the nest in between keeps the entry it pops. -/
theorem execSeq_nest (targets : List Addr12) (s : State) (h : s.sp.val + targets.length ≤ 16) :
    ∃ t, execSeq (targets.map .call ++ List.replicate targets.length .ret) s = .next t ∧
      (targets ≠ [] → t.pc = s.pc + 2#16) ∧ t.sp = s.sp ∧
      (∀ k : Fin 16, k.val < s.sp.val → t.stack[k.val] = s.stack[k.val]) ∧ KeepsBut [.stack] s t := by
  induction targets generalizing s with
  | nil => exact ⟨s, rfl, fun h => absurd rfl h, rfl, fun _ _ => rfl, KeepsBut.refl _ s⟩
  | cons nnn targets ih =>
    rw [List.length_cons] at h
    have hlt : s.sp.val < 16 := by omega
    obtain ⟨t, hcall, htop, hother, hsp, -, hkeep⟩ := callPushesReturnAddress s nnn hlt
    obtain ⟨u, hnest, -, husp, hustack, hukeep⟩ := ih t (by omega)
    have hulow : u.sp.val - 1 = s.sp.val := by omega
    obtain ⟨r, hret, hrpc, hrsp, hrstack, hrkeep⟩ := retPopsReturnAddress.1 u (by omega) (by omega)
    refine ⟨r, ?_, fun _ => ?_, Fin.ext (by omega), fun k hk => ?_, (hkeep.trans hukeep).trans hrkeep⟩
    · rw [List.length_cons, List.replicate_succ', List.map_cons, List.cons_append, execSeq_cons_of_next hcall,
        ← List.append_assoc, execSeq_append_of_next hnest, execSeq_cons_of_next hret]
      rfl
    · have hentry := hustack ⟨s.sp.val, hlt⟩ (by simp only; omega)
      simp only [hrpc, hulow, hentry, htop]
    · rw [hrstack, hustack k (by omega), hother k (by omega)]

/-- Settles O34: a nest of at least one call leaves PC at the word after the first. -/
theorem callsUnwind : Obligations.CallsUnwind := by
  intro s targets hne hfit
  obtain ⟨t, hrun, hpc, hrest⟩ := execSeq_nest targets s hfit
  exact ⟨t, hrun, hpc hne, hrest⟩

end Sys2Proof.Machine
end

section
/-! SUPPORT. The ALU instructions (spec/43_alu.md R81 to R89): one write of VX, and for the flag instructions a second one
of VF, which is what remains when X = F (R77). -/

namespace Sys2Proof.Machine

/-- Settles O41: each instruction is one write of VX by a value whose bits are the operands' bits combined. -/
theorem logicWritesNoFlag : Obligations.LogicWritesNoFlag := by
  intro s x y
  rw [exec_or, exec_and, exec_xor]
  refine ⟨?or, ?and, ?xor⟩
  case or =>
    obtain ⟨t, hexec, hx, hrest⟩ := s.writeV_effect x (s.getV x ||| s.getV y)
    exact ⟨t, hexec, fun k => by rw [hx, BitVec.getLsbD_or], hrest⟩
  case and =>
    obtain ⟨t, hexec, hx, hrest⟩ := s.writeV_effect x (s.getV x &&& s.getV y)
    exact ⟨t, hexec, fun k => by rw [hx, BitVec.getLsbD_and], hrest⟩
  case xor =>
    obtain ⟨t, hexec, hx, hrest⟩ := s.writeV_effect x (s.getV x ^^^ s.getV y)
    exact ⟨t, hexec, fun k => by rw [hx, BitVec.getLsbD_xor], hrest⟩

/-- A write of VX with a flag completes, leaves the flag in VF and the result in VX unless that is VF, advances PC and
changes no other register. -/
theorem State.writeVF_effect (s : State) (x : Reg) (r f : Byte) :
    ∃ t, s.writeVF x r f = .next t ∧ (x ≠ 15 → t.getV x = r) ∧ t.getV 15 = f ∧ t.pc = s.pc + 2#16 ∧
      RegsBut [x, 15] s t ∧ KeepsBut [.regs] s t :=
  ⟨(s.setResultFlag x r f).advance, rfl, fun hx => by simp [hx], by simp, by simp, RegsBut.setResultFlag s x r f,
    (KeepsBut.setResultFlag (List.mem_singleton_self _) s x r f).advance⟩

theorem flagByte_decide (p : Prop) [Decidable p] : flagByte (decide p) = if p then 0x01#8 else 0x00#8 := by
  simp [flagByte]

/-- Settles O42: the result is the sum of two bytes, which wraps at 256, and the flag is the carry of the exact sum. -/
theorem addSetsCarry : Obligations.AddSetsCarry := by
  intro s x y
  rw [exec_addReg]
  obtain ⟨t, hexec, hx, hflag, hrest⟩ := s.writeVF_effect x (s.getV x + s.getV y) (carryFlag (s.getV x) (s.getV y))
  refine ⟨t, hexec, fun hne => ?_, hflag.trans (flagByte_decide _), hrest⟩
  rw [hx hne, BitVec.toNat_add]

/-- The difference of two bytes is the exact difference mod 256. -/
theorem toNat_sub_eq_emod (a b : Byte) : ((a - b).toNat : Int) = ((a.toNat : Int) - b.toNat) % 256 := by
  have := a.isLt
  have := b.isLt
  rw [BitVec.toNat_sub]
  omega

/-- One subtraction, in either order of the operands. -/
theorem State.writeVF_sub (s : State) (x : Reg) (a b : Byte) :
    ∃ t, s.writeVF x (a - b) (noBorrowFlag a b) = .next t ∧
      (x ≠ 15 → ((t.getV x).toNat : Int) = ((a.toNat : Int) - b.toNat) % 256) ∧
      t.getV 15 = (if a.toNat ≥ b.toNat then 0x01#8 else 0x00#8) ∧
      t.pc = s.pc + 2#16 ∧ RegsBut [x, 15] s t ∧ KeepsBut [.regs] s t := by
  obtain ⟨t, hexec, hx, hflag, hrest⟩ := s.writeVF_effect x (a - b) (noBorrowFlag a b)
  refine ⟨t, hexec, fun hne => ?_, hflag.trans (flagByte_decide _), hrest⟩
  rw [hx hne, toNat_sub_eq_emod]

/-- Settles O43: the two instructions are one subtraction with the operands in either order. -/
theorem subtractSetsNoBorrow : Obligations.SubtractSetsNoBorrow := by
  intro s x y
  rw [exec_sub, exec_subn]
  exact ⟨s.writeVF_sub x (s.getV x) (s.getV y), s.writeVF_sub x (s.getV y) (s.getV x)⟩

theorem toNat_shiftedOutRight (a : Byte) : (shiftedOutRight a).toNat = a.toNat % 2 := by
  rw [shiftedOutRight, BitVec.toNat_and]
  exact Nat.and_one_is_mod _

theorem toNat_shiftedOutLeft (a : Byte) : (shiftedOutLeft a).toNat = a.toNat / 128 := by
  have := a.isLt
  have hbit : (shiftedOutLeft a).toNat = (a >>> 7).toNat % 2 := toNat_shiftedOutRight (a >>> 7)
  rw [hbit, BitVec.toNat_ushiftRight, Nat.shiftRight_eq_div_pow]
  omega

/-- Settles O44: a shift by one halves or doubles VX, and the flag is the bit on the side it moves out at. -/
theorem shiftsMoveBitOut : Obligations.ShiftsMoveBitOut := by
  intro s x y
  rw [exec_shr, exec_shl]
  refine ⟨?shr, ?shl⟩
  case shr =>
    obtain ⟨t, hexec, hx, hflag, hrest⟩ := s.writeVF_effect x (s.getV x >>> 1) (shiftedOutRight (s.getV x))
    refine ⟨t, hexec, fun hne => ?_, ?_, hrest⟩
    · rw [hx hne, BitVec.toNat_ushiftRight, Nat.shiftRight_eq_div_pow, Nat.pow_one]
    · rw [hflag, toNat_shiftedOutRight]
  case shl =>
    obtain ⟨t, hexec, hx, hflag, hrest⟩ := s.writeVF_effect x (s.getV x <<< 1) (shiftedOutLeft (s.getV x))
    refine ⟨t, hexec, fun hne => ?_, ?_, hrest⟩
    · rw [hx hne, BitVec.toNat_shiftLeft, Nat.shiftLeft_eq, Nat.pow_one, Nat.mul_comm]
    · rw [hflag, toNat_shiftedOutLeft]

/-- Settles O45: whatever byte is drawn, CXNN is one write of VX by it and NN; the draw itself is counted. -/
theorem rndMasksDrawnByte : Obligations.RndMasksDrawnByte := by
  intro s x nn
  constructor
  · obtain ⟨t, hwrite, hx, hpc, -, hkeep⟩ := s.countDraw.writeV_effect x (Config.drawRandom s.draws &&& nn)
    have hexec := (exec_rnd x nn s).trans hwrite
    have hdraws : t.draws = s.draws + 1 := hkeep .draws (by simp)
    refine ⟨t, hexec, hx, fun k hk => ?_, hdraws, hpc, exec_regsBut hexec, exec_keepsBut hexec⟩
    rw [hx, BitVec.getLsbD_and, hk, Bool.and_false]
  · intro r
    obtain ⟨t, hwrite, hx, hrest⟩ := s.writeV_effect x (r &&& nn)
    exact ⟨t, hwrite, fun k => by rw [hx, BitVec.getLsbD_and], hrest⟩

end Sys2Proof.Machine
end

section
/-! SUPPORT. What FX1E and FX29 write to I (spec/44_index_memory.md R91, R92), and what the stores and loads of
memory do (R93 to R95). -/

namespace Sys2Proof.Machine

/-- Settles O47: the instruction is one write of I by a sum of 16-bit words. -/
theorem addIndexWrapsAt16Bits : Obligations.AddIndexWrapsAt16Bits := by
  intro s x
  refine ⟨_, exec_addIVx x s, ?_, rfl, exec_keepsBut (exec_addIVx x s)⟩
  rw [State.advance_i, State.setI_i, BitVec.toNat_add, byteWord, BitVec.toNat_setWidth_of_le (by decide)]

/-- Settles O48: for a digit, I is written by the address of its glyph; above 0x0F the digit check faults. -/
theorem ldFPointsAtGlyph : Obligations.LdFPointsAtGlyph := by
  intro s x
  constructor
  · intro hle
    have hexec := (exec_ldFVx x s).trans (withDigit_of_lt (by omega))
    refine ⟨_, hexec, ?_, rfl, exec_keepsBut hexec⟩
    simp only [State.advance_i, State.setI_i, glyphAddr, fontBase, glyphSize, BitVec.toNat_ofNat]
    omega
  · intro hgt
    exact (instructionFaultsExactlyAsListed s (.ldFVx x) _).2 ⟨hgt, rfl⟩

/-! ### Bytes in a row -/

theorem Memory.read_writeBytes_add {m : Memory} {a k : Nat} {xs : List Byte} (hm : Memory.wf m = true)
    (hfit : a + xs.length ≤ 4096) (hk : k < xs.length) :
    Memory.read (Memory.writeBytes m a xs) (a + k) = xs.getD k 0x00#8 := by
  rw [Memory.read_writeBytes hm (.inr hfit), if_pos (by omega), Nat.add_sub_cancel_left]

theorem Memory.read_writeBytes_outside {m : Memory} {a b : Nat} {xs : List Byte} (hm : Memory.wf m = true)
    (hfit : a + xs.length ≤ 4096) (hb : ¬ (a ≤ b ∧ b < a + xs.length)) :
    Memory.read (Memory.writeBytes m a xs) b = Memory.read m b := by
  rw [Memory.read_writeBytes hm (.inr hfit), if_neg hb]

/-- A store whose addresses exist completes, and its bytes stand from I up and nowhere else. -/
theorem State.storeBytes_effect {s : State} {w : Word} {bs : List Byte} (hm : Memory.wf s.mem = true)
    (hfit : s.i.toNat + bs.length ≤ 4096) :
    ∃ t, s.storeBytes w bs = .next t ∧
      (∀ k, k < bs.length → Memory.read t.mem (s.i.toNat + k) = bs.getD k 0x00#8) ∧
      BytesBut s.i.toNat bs.length s t ∧ t.pc = s.pc + 2#16 :=
  ⟨_, State.storeBytes_eq_next.2 ⟨.inr hfit, rfl⟩, fun _ hk => Memory.read_writeBytes_add hm hfit hk,
    fun _ ha => Memory.read_writeBytes_outside hm hfit ha, rfl⟩

/-- The bytes of the decimal digits have the digits' values: a byte's hundreds, tens and ones are below 256. -/
theorem bcdDigits_toNat (b : Byte) :
    ((bcdDigits b).getD 0 0x00#8).toNat = b.toNat / 100 ∧ ((bcdDigits b).getD 1 0x00#8).toNat = b.toNat / 10 % 10 ∧
      ((bcdDigits b).getD 2 0x00#8).toNat = b.toNat % 10 := by
  have := b.isLt
  simp only [bcdDigits, List.getD_cons_zero, List.getD_cons_succ, BitVec.toNat_ofNat]
  omega

/-- Settles O49: the three digits are bytes, and they stand at I and the two addresses after it. -/
theorem bcdStoresThreeDigits : Obligations.BcdStoresThreeDigits := by
  intro s x hm
  constructor
  · intro hfit
    have hlen : (bcdDigits (s.getV x)).length = 3 := rfl
    obtain ⟨t, hexec, hread, hother, hpc⟩ :=
      State.storeBytes_effect (w := encode (.ldBVx x)) (bs := bcdDigits (s.getV x)) hm (by omega)
    obtain ⟨hhundreds, htens, hones⟩ := bcdDigits_toNat (s.getV x)
    refine ⟨t, hexec, ?_, ?_, ?_, hother, hpc, exec_keepsBut (i := .ldBVx x) hexec⟩
    · rw [← hhundreds, ← hread 0 (by omega), Nat.add_zero]
    · rw [← htens, ← hread 1 (by omega)]
    · rw [← hones, ← hread 2 (by omega)]
  · intro a ha
    exact ⟨(instructionFaultsExactlyAsListed s (.ldBVx x) _).2 ⟨a, ha, rfl⟩, rfl⟩

/-- Settles O50: the bytes stored are V0 to VX in their order. -/
theorem storeRegistersToMemory : Obligations.StoreRegistersToMemory := by
  intro s x hm
  constructor
  · intro hfit
    obtain ⟨t, hexec, hread, hother, hpc⟩ :=
      State.storeBytes_effect (w := encode (.ldMemVx x)) (bs := s.regsUpTo x) hm
        (by rw [State.length_regsUpTo]; omega)
    rw [State.length_regsUpTo] at hread hother
    refine ⟨t, hexec, fun k hk => ?_, hother, hpc, exec_keepsBut (i := .ldMemVx x) hexec⟩
    rw [hread k.val (Nat.lt_succ_of_le hk), s.getD_regsUpTo hk]
  · intro a ha
    exact (instructionFaultsExactlyAsListed s (.ldMemVx x) _).2 ⟨a, ha, rfl⟩

/-- Settles O51: V0 to VX take the bytes from I up, and the registers above X are none of them. -/
theorem loadRegistersFromMemory : Obligations.LoadRegistersFromMemory := by
  intro s x
  constructor
  · intro hfit
    have hexec := (exec_ldVxMem x s).trans (withBytes_eq_next.2 ⟨.inr hfit, rfl⟩)
    refine ⟨_, hexec, fun k hk => ?_, fun k hk => exec_regsBut hexec k (by simpa [writtenRegs] using hk), ?_,
      exec_keepsBut hexec⟩
    · have hlt : k.val < x.val + 1 := Nat.lt_succ_of_le hk
      rw [State.getV_advance, State.getV_loadRegs _ _ (by rw [Memory.length_readBytes]; omega), Memory.length_readBytes,
        if_pos hlt, Memory.getD_readBytes _ _ hlt, State.base_eq]
    · rw [State.advance_pc, State.loadRegs_pc]
  · intro a ha
    exact (instructionFaultsExactlyAsListed s (.ldVxMem x) _).2 ⟨a, ha, rfl⟩

/-- A store that completes had all its addresses, and a load that completes too. -/
theorem fits_of_exec_ldMemVx {s t : State} {x : Reg} (h : exec (.ldMemVx x) s = .next t) : s.i.toNat + x.val ≤ 0xFFF := by
  obtain ⟨hfit, -⟩ := withBytes_eq_next.1 h
  rw [State.length_regsUpTo, State.base_eq] at hfit
  omega

theorem fits_of_exec_ldVxMem {s t : State} {x : Reg} (h : exec (.ldVxMem x) s = .next t) : s.i.toNat + x.val ≤ 0xFFF := by
  obtain ⟨hfit, -⟩ := withBytes_eq_next.1 h
  rw [State.base_eq] at hfit
  omega

/-- What FX55 stores where it completes. -/
theorem read_of_exec_ldMemVx {s t : State} {x : Reg} (hm : Memory.wf s.mem = true) (h : exec (.ldMemVx x) s = .next t)
    {k : Reg} (hk : k ≤ x) : Memory.read t.mem (s.i.toNat + k.val) = s.getV k := by
  obtain ⟨t', ht', hread, -⟩ := (storeRegistersToMemory s x hm).1 (fits_of_exec_ldMemVx h)
  obtain rfl := Host.Outcome.next.inj (h.symm.trans ht')
  exact hread k hk

/-- Settles O52: the load reads at the same addresses the bytes that the store put there. -/
theorem storeThenLoadRestoresRegisters : Obligations.StoreThenLoadRestoresRegisters := by
  intro s t u r x hm hstore hmem hi hload k hk
  obtain ⟨r', hr', hread, -⟩ := (loadRegistersFromMemory u x).1 (fits_of_exec_ldVxMem hload)
  obtain rfl := Host.Outcome.next.inj (hload.symm.trans hr')
  rw [hread k hk, hmem, hi, read_of_exec_ldMemVx hm hstore hk]

/-- Settles O53: the two bytes at the new PC are the two registers stored there. -/
theorem storedCodeIsFetchedNext : Obligations.StoredCodeIsFetchedNext := by
  intro s t x k i hm hwait hstore hk hpc hlo hdec
  have hfit := fits_of_exec_ldMemVx hstore
  have hkx : k.val < x.val := hk
  have hsucc : (k + 1).val = k.val + 1 := Fin.val_add_one_of_lt (lt_of_lt_of_le hk (Fin.le_last x))
  have hnext : t.pc = s.pc + 2#16 := by
    obtain ⟨-, rfl⟩ := State.storeBytes_eq_next.1 hstore
    rfl
  have hhi : Memory.read t.mem t.pc.toNat = s.getV k := by
    rw [hnext, hpc, read_of_exec_ldMemVx hm hstore (le_of_lt hk)]
  have hlow : Memory.read t.mem (t.pc.toNat + 1) = s.getV (k + 1) := by
    have hle : k + 1 ≤ x := by
      rw [Fin.le_def, hsucc]
      exact hkx
    rw [← read_of_exec_ldMemVx hm hstore hle, hnext, hpc, hsucc, Nat.add_assoc]
  have htwait : t.wait = none := (exec_keepsBut hstore .wait (by simp [writtenParts])).1.trans hwait
  rw [← hnext] at hlo hpc
  exact stepRunsDecodedInstruction t i htwait hlo (by omega) (by rw [hhi, hlow, hdec])

end Sys2Proof.Machine
end

section
/-! SUPPORT. The keypad (spec/45_keypad.md), and the host's `set_key` and `load` (spec/60_exceptions.md R112;
spec/70_reset_and_hazards.md R120). -/

namespace Sys2Proof.Machine

/-- Settles O54: for a key's number both instructions are one `skipIf` on the key's flag; above 0x0F the digit check
faults. -/
theorem keySkipsReadKeyVx : Obligations.KeySkipsReadKeyVx := by
  intro s x
  constructor
  · intro hlt
    have hskp := (exec_skp x s).trans (withDigit_of_lt hlt)
    have hsknp := (exec_sknp x s).trans (withDigit_of_lt hlt)
    refine ⟨⟨_, hskp, ?_, exec_keepsBut hskp⟩, ⟨_, hsknp, ?_, exec_keepsBut hsknp⟩⟩
    · rw [State.skipIf_pc_eq_add, State.keyDown]
    · simp only [State.skipIf_pc_eq_add, State.keyDown, Bool.not_eq_true', ← Bool.not_eq_true, ite_not]
  · intro hgt
    exact ⟨(instructionFaultsExactlyAsListed s (.skp x) _).2 ⟨hgt, rfl⟩,
      (instructionFaultsExactlyAsListed s (.sknp x) _).2 ⟨hgt, rfl⟩⟩

/-- Settles O55: FX0A is one write of the wait and the default advance. -/
theorem waitForKeyBegins : Obligations.WaitForKeyBegins := fun s x =>
  ⟨_, exec_ldVxK x s, rfl, rfl, rfl, exec_keepsBut (exec_ldVxK x s)⟩

/-! ### `set_key` -/

theorem keyDown_setKey (s : State) (k j : Fin 16) (p : Bool) :
    (setKey k p s).keyDown j = if j = k then p else s.keyDown j := by
  rw [setKey_eq]
  simp only [State.keyDown, State.setKeyFlag_key, State.setWait_key, Vector.getElem_set, Fin.val_inj, eq_comm (a := k)]

theorem setKey_wait (s : State) (k : Fin 16) (p : Bool) : (setKey k p s).wait = s.wait := by
  rw [setKey_eq]
  rfl

theorem setKey_waitLatch (s : State) (k : Fin 16) (p : Bool) : (setKey k p s).waitLatch = s.pressLatch k p := by
  rw [setKey_eq]
  rfl

theorem setKey_pc (s : State) (k : Fin 16) (p : Bool) : (setKey k p s).pc = s.pc := by
  rw [setKey_eq]
  rfl

theorem getV_setKey (s : State) (k : Fin 16) (p : Bool) (r : Reg) : (setKey k p s).getV r = s.getV r := by
  rw [setKey_eq]
  rfl

/-- The bit of key k alone. -/
theorem getLsbD_keyBit (k j : Fin 16) : (1#16 <<< k.val).getLsbD j.val = (j == k) := by
  have hbit : (BitVec.twoPow 16 k.val).getLsbD j.val = (decide (k.val < 16) && decide (k.val = j.val)) :=
    BitVec.getLsbD_twoPow k.val j.val
  rw [BitVec.twoPow, decide_eq_true k.isLt, Bool.true_and] at hbit
  rw [hbit, Bool.beq_eq_decide_eq, decide_eq_decide, Fin.ext_iff, eq_comm]

theorem State.getLsbD_pressLatch (s : State) (k j : Fin 16) (p : Bool) :
    (s.pressLatch k p).getLsbD j.val = (s.waitLatch.getLsbD j.val || (j == k && p && !s.keyDown k && s.wait.isSome)) := by
  have hassoc : (j == k && p && !s.keyDown k && s.wait.isSome) = (j == k && (p && !s.keyDown k && s.wait.isSome)) := by
    simp only [Bool.and_assoc]
  rw [hassoc, State.pressLatch]
  split
  case isTrue h => rw [BitVec.getLsbD_or, getLsbD_keyBit, h, Bool.and_true]
  case isFalse h => rw [Bool.eq_false_iff.2 h, Bool.and_false, Bool.or_false]

theorem State.pressLatch_of_keyDown {s : State} {k : Fin 16} (p : Bool) (h : s.keyDown k = true) :
    s.pressLatch k p = s.waitLatch := by
  simp [State.pressLatch, h]

/-- Settles O59: the call is one write of the latch and one of the key's flag. -/
theorem setKeyLatchesPresses : Obligations.SetKeyLatchesPresses := by
  constructor
  · intro s k p
    refine ⟨setKey k p s, dif_pos k.isLt, ?_, fun j hj => ?_, fun j => ?_, setKey_wait s k p, setKey_pc s k p, ?_⟩
    · rw [keyDown_setKey, if_pos rfl]
    · rw [keyDown_setKey, if_neg hj]
    · rw [setKey_waitLatch, State.getLsbD_pressLatch]
    · rw [setKey_eq]
      exact (KeepsBut.setWait (by simp) s _ _).trans (KeepsBut.setKeyFlag (by simp) _ k p)
  · intro s index p hindex
    exact dif_neg (by omega)

/-! ### The wait -/

/-- In a wait with nothing latched no number of steps changes anything. -/
theorem runOps_steps_of_idle {s : State} {x : Reg} (hwait : s.wait = some x) (hlatch : s.waitLatch = 0#16) (n : Nat) :
    runOps (List.replicate n .step) s = s := by
  induction n with
  | zero => rfl
  | succ n ih => rw [List.replicate_succ, runOps_cons, HostOp.apply_step_of_next ((stepInWait s x hwait).1 hlatch), ih]

/-- In a wait with key k's bit alone latched, the step puts k in the waiting register and ends the wait. -/
theorem step_of_only_key {s : State} {x : Reg} {k : Fin 16} (hwait : s.wait = some x)
    (hbit : ∀ j : Fin 16, s.waitLatch.getLsbD j.val = (j == k)) :
    ∃ u, step s = .next u ∧ (u.getV x).toNat = k.val ∧ u.wait = none ∧ u.waitLatch = 0#16 ∧ u.pc = s.pc ∧
      RegsBut [x] s u ∧ KeepsBut [.regs, .wait] s u := by
  have hlatch : s.waitLatch ≠ 0#16 := by
    intro hzero
    simpa [hzero] using hbit k
  obtain ⟨u, hstep, hu, hul, hpc, ⟨j, hj, hset, -, hx⟩, hregs, hkeep⟩ := (stepInWait s x hwait).2 hlatch
  have hjk : (⟨j, hj⟩ : Fin 16) = k := eq_of_beq ((hbit ⟨j, hj⟩).symm.trans hset)
  exact ⟨u, hstep, hx.trans (congrArg Fin.val hjk), hu, hul, hpc, hregs, hkeep⟩

/-- Settles O56: a press of a key already down latches nothing, so the wait goes on; a press of an up key latches its bit
alone, and the next step takes it. -/
theorem keyPressEndsWait : Obligations.KeyPressEndsWait := by
  intro s t x k h
  obtain ⟨t', ht', hwait, hlatch, hpc, hkeep⟩ := waitForKeyBegins s x
  obtain rfl := Host.Outcome.next.inj (h.symm.trans ht')
  have hkey : t.keyDown k = s.keyDown k := by
    rw [State.keyDown, State.keyDown, hkeep .key (by simp)]
  have hregs : ∀ r, t.getV r = s.getV r := hkeep .regs (by simp)
  have hpress : (setKey k true t).wait = some x := (setKey_wait t k true).trans hwait
  refine ⟨runOps_steps_of_idle hwait hlatch, fun hdown => ?_, fun hup => ?_⟩
  · have hidle : (setKey k true t).waitLatch = 0#16 := by
      rw [setKey_waitLatch, State.pressLatch_of_keyDown true (hkey.trans hdown), hlatch]
    exact (stepInWait _ x hpress).1 hidle
  · have hbit : ∀ j : Fin 16, (setKey k true t).waitLatch.getLsbD j.val = (j == k) := by
      intro j
      rw [setKey_waitLatch, State.getLsbD_pressLatch, hlatch, hkey, hup, hwait]
      simp
    obtain ⟨u, hstep, hx, hu, hul, hupc, huregs, hukeep⟩ := step_of_only_key hpress hbit
    refine ⟨u, hstep, hx, hu, hul, ?_, ?_, fun r hr => ?_⟩
    · rw [hupc, setKey_pc, hpc]
    · have hukey : u.key = (setKey k true t).key := hukeep .key (by simp)
      rw [State.keyDown, hukey]
      exact (keyDown_setKey t k k true).trans (if_pos rfl)
    · rw [huregs r hr, getV_setKey, hregs]

/-! ### `load` -/

/-- Settles O60: a load that fits is one write of bytes from the origin up. -/
theorem loadCopiesProgram : Obligations.LoadCopiesProgram := by
  intro s bytes origin hm
  constructor
  · intro hfit
    refine ⟨_, load_eq_some.2 ⟨hfit, rfl⟩, fun k hk => ?_, fun a ha => Memory.read_writeBytes_outside hm hfit ha, rfl,
      KeepsBut.setMem (by simp) s _⟩
    rw [State.setMem_mem, Memory.read_writeBytes_add hm hfit hk, List.getD_eq_getElem _ _ hk]
  · intro hbig
    have hload : load bytes origin s = none := if_pos hbig
    refine ⟨hload, ?_⟩
    rw [HostOp.apply, hload, Option.getD_none]

end Sys2Proof.Machine
end

section
/-! SUPPORT. DRW (spec/41_display.md R63 to R65): the rows drawn are the bytes from I up, at the wrapped place. -/

namespace Sys2Proof.Machine

/-- The drawing of a sprite toggles the pixels that the clipped sprite covers. -/
theorem covers_spriteDrawing (s : State) (vx vy : Reg) (n : Fin 16) :
    Covers (SpriteCovers s vx vy n) (s.fb, false) (spriteDrawing s vx vy n) := by
  refine (covers_drawRows (s.fb, false) (Memory.readBytes s.mem s.base n.val) (spriteCol s vx) (spriteRow s vy)).congr
    fun x y => ?_
  rw [Memory.length_readBytes]
  simp only [SpriteCovers, spriteCol, spriteRow, Config.dispW, Config.dispH]
  refine and_congr_right fun _ => and_congr_right fun _ => and_congr_right fun hlo => and_congr_right fun hhi => ?_
  rw [Memory.getD_readBytes _ _ (by omega), State.base_eq]

/-- What a drawing that completes leaves in the framebuffer and in VF. -/
theorem exec_drw_covers {s t : State} {vx vy : Reg} {n : Fin 16} (h : exec (.drw vx vy n) s = .next t) :
    ∃ hit, Covers (SpriteCovers s vx vy n) (s.fb, false) (t.fb, hit) ∧ t.getV 15 = flagByte hit := by
  obtain ⟨-, rfl⟩ := withBytes_eq_next.1 h
  exact ⟨(spriteDrawing s vx vy n).2, covers_spriteDrawing s vx vy n, by rw [State.getV_advance, State.getV_setV, if_pos rfl]⟩

/-- Settles O27: the drawing toggles what the sprite covers, and its collision mark goes to VF. -/
theorem drwTogglesCoveredPixels : Obligations.DrwTogglesCoveredPixels := by
  intro s vx vy n
  constructor
  · intro hfit
    have hexec := (exec_drw vx vy n s).trans (withBytes_eq_next.2 ⟨hfit, rfl⟩)
    obtain ⟨hit, ⟨hon, hoff, hhit⟩, hflag⟩ := exec_drw_covers hexec
    simp only [Bool.false_eq_true, false_or] at hhit
    refine ⟨_, hexec, hon, hoff, fun hc => ?_, fun hc => ?_, rfl, exec_regsBut hexec, exec_keepsBut hexec⟩
    · obtain rfl : hit = true := hhit.2 hc
      exact hflag
    · obtain rfl : hit = false := Bool.eq_false_iff.2 (mt hhit.1 hc)
      exact hflag
  · intro a ha
    exact (instructionFaultsExactlyAsListed s (.drw vx vy n) _).2 ⟨a, ha, rfl⟩

/-- A drawing at a place that VF does not name leaves the sprite and its place as they were. -/
theorem spriteCovers_of_exec_drw {s t : State} {vx vy : Reg} {n : Fin 16} (hx : vx ≠ 15) (hy : vy ≠ 15)
    (h : exec (.drw vx vy n) s = .next t) : SpriteCovers t vx vy n = SpriteCovers s vx vy n := by
  have hmem : ∀ a, Memory.read t.mem a = Memory.read s.mem a := exec_keepsBut h .mem (by simp [writtenParts])
  have hi : t.i = s.i := exec_keepsBut h .i (by simp [writtenParts])
  have hvx : t.getV vx = s.getV vx := exec_regsBut h vx (by simpa [writtenRegs] using hx)
  have hvy : t.getV vy = s.getV vy := exec_regsBut h vy (by simpa [writtenRegs] using hy)
  funext x y
  simp only [SpriteCovers, hmem, hi, hvx, hvy]

/-- Settles O28: both drawings toggle the same pixels, so the second undoes the first and meets its pixels lit. -/
theorem drawTwiceRestores : Obligations.DrawTwiceRestores := by
  intro s t u vx vy n hx hy ht hu
  obtain ⟨_, ⟨hon, hoff, -⟩, -⟩ := exec_drw_covers ht
  obtain ⟨hit, hcovers, hflag⟩ := exec_drw_covers hu
  rw [spriteCovers_of_exec_drw hx hy ht] at hcovers
  obtain ⟨hon', hoff', hhit⟩ := hcovers
  refine ⟨Framebuffer.ext_pixel fun x y => ?_, ?_, fun hclear x y => ?_⟩
  · by_cases hc : SpriteCovers s vx vy n x y
    · rw [hon' x y hc, hon x y hc, Bool.not_not]
    · rw [hoff' x y hc, hoff x y hc]
  · rintro ⟨x, y, hc⟩ hclear
    have hlit : Framebuffer.pixel t.fb x y = true := by rw [hon x y hc, hclear, Bool.not_false]
    obtain rfl : hit = true := hhit.2 (.inr ⟨x, y, hc, hlit⟩)
    exact hflag
  · by_cases hc : SpriteCovers s vx vy n x y
    · simp [hon x y hc, hclear, hc]
    · simp [hoff x y hc, hclear, hc]

end Sys2Proof.Machine
end
